-- ==== Sys2Proof/Word.lean ====
section
/-!
DEFINITION. The word and byte types of the engine (spec/00_scope.md R9, R14; spec/20_memory.md R60).
-/

namespace Sys2Proof

/-- A 32-bit word: a state word, a register of the window, a command word (R9, R14). Unsigned. -/
abbrev Word := BitVec 32

/-- One byte of the buffer, of a window or of a digest (R16). -/
abbrev Byte := BitVec 8

end Sys2Proof
end

