-- ==== Sys2Proof/Syntax.lean ====
section
/-!
DEFINITION. The nine commands of spec/opcode_table.json, with their operands (spec/30_encoding.md R90 to R94).
-/

namespace Sys2Proof

/-- The five backend modules, ids 1 to 5 (spec/42_backends.md R130). -/
inductive Backend where
  | soft | sse2 | avx2 | avx512 | neon
  deriving DecidableEq, Repr

/-- The backend selector of INIT and MAC_INIT (R94): 0 is automatic, 1 to 5 name a backend. The values 6 and 7
are illegal, so no selector stands for them: the decoder refuses them by name. -/
inductive Selector where
  | auto
  | named (b : Backend)
  deriving DecidableEq, Repr

/-- The commands, one constructor per row of spec/opcode_table.json, in the table's order (R92). Lengths are the
7-bit ARG field (R91); which of their values are legal is said in WellFormed.lean. -/
inductive Instr where
  | nop
  | init (bk : Selector)
  | update (len : BitVec 7)
  | final
  | macInit (keylen : BitVec 7) (bk : Selector)
  | verify (taglen : BitVec 7)
  | ctxSave
  | ctxLoad
  | zeroize
  deriving DecidableEq, Repr

end Sys2Proof
end

