-- ==== Sys2Proof/WellFormed.lean ====
section
/-!
DEFINITION. Which commands are legal (spec/30_encoding.md R94, R95): the checks of an instruction's own fields.
-/

namespace Sys2Proof

/-- Whether command `i` is legal on an instance whose parameter HAS_ZEROIZE is `hasZeroize` (R95). A KEYLEN is never
illegal (R94); a backend selector cannot be, by its type. -/
def Instr.wellFormed (hasZeroize : Bool) : Instr → Bool
  | .nop => true
  | .init _ => true
  | .update len => decide (len.toNat ≤ 32)
  | .final => true
  | .macInit _ _ => true
  | .verify taglen => decide (taglen.toNat ≤ 64)
  | .ctxSave => true
  | .ctxLoad => true
  | .zeroize => hasZeroize

end Sys2Proof
end

