-- ==== Sys2Proof/Decode.lean ====
section
/-!
DEFINITION. The decoder of command words, total on all 2^32 of them, and the encoder (spec/30_encoding.md R90 to R97, R99).
-/

namespace Sys2Proof

/-- Why a command word is illegal (R95). The engine completes every one of them with ILLEGAL_COMMAND. -/
inductive Illegal where
  /-- OP is 0x09 to 0xFF. -/
  | reservedOpcode
  /-- OP is 0x00 to 0x08 and a reserved or unused field is not zero. -/
  | reservedField
  /-- BK is 6 or 7 in INIT or MAC_INIT. -/
  | backendOutOfRange
  /-- LEN is above 32 in UPDATE. -/
  | lenOutOfRange
  /-- TAGLEN is above 64 in VERIFY. -/
  | taglenOutOfRange
  /-- ZEROIZE on an instance without the secure-erase capability. -/
  | zeroizeAbsent
  deriving DecidableEq, Repr

/-- The command a row of R93 selects. -/
inductive Opcode where
  | nop | init | update | final | macInit | verify | ctxSave | ctxLoad | zeroize
  deriving DecidableEq, Repr

/-- One row of R93: a command word `cw` selects `op` when `cw & mask = pattern`. -/
structure OpcodeRow where
  op : Opcode
  pattern : Word
  mask : Word
  deriving DecidableEq, Repr

/-- The rows of R93, as spec/opcode_table.json has them. -/
def opcodeRows : List OpcodeRow :=
  [ { op := .nop,     pattern := 0x00000000, mask := 0xFFFFFFFF },
    { op := .init,    pattern := 0x00000001, mask := 0xFFF8FFFF },
    { op := .update,  pattern := 0x00000002, mask := 0xFFFF80FF },
    { op := .final,   pattern := 0x00000003, mask := 0xFFFFFFFF },
    { op := .macInit, pattern := 0x00000004, mask := 0xFFF880FF },
    { op := .verify,  pattern := 0x00000005, mask := 0xFFFF80FF },
    { op := .ctxSave, pattern := 0x00000006, mask := 0xFFFFFFFF },
    { op := .ctxLoad, pattern := 0x00000007, mask := 0xFFFFFFFF },
    { op := .zeroize, pattern := 0x00000008, mask := 0xFFFFFFFF } ]

/-- `CW & mask = match` (R93). -/
def OpcodeRow.selects (r : OpcodeRow) (cw : Word) : Bool := cw &&& r.mask == r.pattern

/-- OP = CW[7:0] (R91). -/
def opField (cw : Word) : BitVec 8 := cw.extractLsb' 0 8

/-- ARG = CW[14:8] (R91). -/
def argField (cw : Word) : BitVec 7 := cw.extractLsb' 8 7

/-- BK = CW[18:16] (R91). -/
def bkField (cw : Word) : BitVec 3 := cw.extractLsb' 16 3

/-- The selector a BK field stands for (R94); 6 and 7 stand for none. -/
def Selector.ofField (bk : BitVec 3) : Option Selector :=
  match bk.toNat with
  | 0 => some .auto
  | 1 => some (.named .soft)
  | 2 => some (.named .sse2)
  | 3 => some (.named .avx2)
  | 4 => some (.named .avx512)
  | 5 => some (.named .neon)
  | _ => none

/-- The BK field a selector is written as (R94, R99). -/
def Selector.toField : Selector → BitVec 3
  | .auto => 0
  | .named .soft => 1
  | .named .sse2 => 2
  | .named .avx2 => 3
  | .named .avx512 => 4
  | .named .neon => 5

/-- The operand checks of R97 for the row a word selected, and the command with its operands. -/
def assemble (hasZeroize : Bool) (op : Opcode) (arg : BitVec 7) (bk : BitVec 3) : Except Illegal Instr :=
  match op with
  | .nop => .ok .nop
  | .init =>
    match Selector.ofField bk with
    | some sel => .ok (.init sel)
    | none => .error .backendOutOfRange
  | .update => if 32 < arg.toNat then .error .lenOutOfRange else .ok (.update arg)
  | .final => .ok .final
  | .macInit =>
    match Selector.ofField bk with
    | some sel => .ok (.macInit arg sel)
    | none => .error .backendOutOfRange
  | .verify => if 64 < arg.toNat then .error .taglenOutOfRange else .ok (.verify arg)
  | .ctxSave => .ok .ctxSave
  | .ctxLoad => .ok .ctxLoad
  | .zeroize => if hasZeroize then .ok .zeroize else .error .zeroizeAbsent

/-- `decode` of R97, total on all 2^32 words. -/
def decode (hasZeroize : Bool) (cw : Word) : Except Illegal Instr :=
  match opcodeRows.find? (fun r => r.selects cw) with
  | some r => assemble hasZeroize r.op (argField cw) (bkField cw)
  | none => .error (if (opField cw).toNat ≤ 8 then .reservedField else .reservedOpcode)

/-- A command word from its fields OP, ARG and BK; the reserved bits are 0 (R90). -/
def commandWord (op : BitVec 8) (arg : BitVec 7) (bk : BitVec 3) : Word :=
  op.setWidth 32 ||| (arg.setWidth 32 <<< 8) ||| (bk.setWidth 32 <<< 16)

/-- The command word of a command (R99). -/
def encode : Instr → Word
  | .nop => commandWord 0x00 0 0
  | .init bk => commandWord 0x01 0 bk.toField
  | .update len => commandWord 0x02 len 0
  | .final => commandWord 0x03 0 0
  | .macInit keylen bk => commandWord 0x04 keylen bk.toField
  | .verify taglen => commandWord 0x05 taglen 0
  | .ctxSave => commandWord 0x06 0 0
  | .ctxLoad => commandWord 0x07 0 0
  | .zeroize => commandWord 0x08 0 0

/-- The command the decoder reads from a word numbered as spec/opcode_table.json numbers its bits: the low `nbits`
of `w`, every bit above them 0. The instance decoded for has the secure-erase capability (HAS_ZEROIZE = 1), so that
every row of the table is a command. DESIGN CHOICE: log 17. -/
def decodeTableWord (nbits w : Nat) : Option Instr :=
  match decode true (BitVec.ofNat 32 (w % 2 ^ nbits)) with
  | .ok i => some i
  | .error _ => none

end Sys2Proof
end

