-- ==== Sys2Proof/Config.lean ====
section
/-!
DEFINITION. What one instance of the engine fixes (its parameters, spec/00_scope.md R10) and the values the spec leaves
free (spec/93_implementation_defined.md U1, U2).
-/

namespace Sys2Proof.Config

/-- Parameter ARCH: the host architecture class the engine is paired with (R10). -/
inductive Arch where
  | x86_64 | aarch64 | other
  deriving DecidableEq, Repr

/-- The parameters of R10, which a model takes as arguments. State holds them, no step changes them, and every
statement about a state holds for all of them. Log 1. -/
structure Params where
  /-- BASE divided by 1024. BASE is 1 KiB aligned (R10, R60), so it is `1024 * baseKib`. -/
  baseKib : Nat
  /-- ARCH. -/
  arch : Arch
  /-- FEAT[0..4]: bit k is 1 when the features that the backend of id k+1 needs are present. FEAT[0] is ignored. -/
  feat : BitVec 5
  /-- PREF without its last element, which is always Soft. -/
  prefFront : List Backend
  /-- HAS_ZEROIZE: whether the secure-erase capability is present (R11). -/
  hasZeroize : Bool
  deriving DecidableEq, Repr

/-- BASE (R60). -/
def Params.base (p : Params) : Nat := 1024 * p.baseKib

/-- PREF: the automatic-selection order, a list that ends with Soft (R10, spec/43_dispatcher.md R143). -/
def Params.pref (p : Params) : List Backend := p.prefFront ++ [.soft]

/-- PREF is a list of distinct ids (R10). -/
abbrev Params.wellFormed (p : Params) : Prop := p.pref.Nodup

/-- The parameters `State.reset` names, because the host's interface asks for one state after reset.
DESIGN CHOICE: log 1. ARCH = OTHER and FEAT = 0 are those of the spec's programs (spec/95_test_vectors.md section 8), PREF
is the suggested default (R143), HAS_ZEROIZE = 1 so that every row of the opcode table is a command. -/
def resetParams : Params :=
  { baseKib := 0, arch := .other, feat := 0, prefFront := [.avx512, .avx2, .sse2, .neon], hasZeroize := true }

/-- FREE VALUE. What a host read of a register of R73 returns while BUSY = 1: draw number `n`. No law (U1). Log 5. -/
opaque freeRead (n : Nat) : Word

/-- FREE VALUE. How many host accesses come between the acceptance of a command and the engine's step, when the host
has that many to make: draw number `n`. Finite, no bound and no law (R8, R241, U2). Log 4. -/
opaque latency (n : Nat) : Nat

end Sys2Proof.Config
end

