-- ==== Sys2Proof/Machine/Caps.lean ====
section
/-!
DEFINITION. The capability vector CAPS and backend ids (spec/10_state.md R34; spec/42_backends.md R130; spec/43_dispatcher.md R140, R141).
-/

namespace Sys2Proof.Machine

/-- The id of a backend, 1 to 5 (R130). -/
def backendId : Backend → Nat
  | .soft => 1
  | .sse2 => 2
  | .avx2 => 3
  | .avx512 => 4
  | .neon => 5

/-- The word with bit `k` equal to `b` and every other bit 0. -/
def bitWord (k : Nat) (b : Bool) : Word := if b then BitVec.twoPow 32 k else 0

/-- Whether a backend exists on an instance: the CAPS fields of R34, from ARCH and FEAT. -/
def backendPresent (p : Config.Params) : Backend → Bool
  | .soft => true
  | .sse2 => decide (p.arch = .x86_64) && p.feat.getLsbD 1
  | .avx2 => decide (p.arch = .x86_64) && p.feat.getLsbD 2
  | .avx512 => decide (p.arch = .x86_64) && p.feat.getLsbD 3
  | .neon => decide (p.arch = .aarch64) && p.feat.getLsbD 4

/-- The value reset computes and latches in CAPS (R34, R141): bit id-1 for each backend, bit 8 for HAS_ZEROIZE. -/
def capsOf (p : Config.Params) : Word :=
  bitWord 0 (backendPresent p .soft) ||| bitWord 1 (backendPresent p .sse2) ||| bitWord 2 (backendPresent p .avx2)
    ||| bitWord 3 (backendPresent p .avx512) ||| bitWord 4 (backendPresent p .neon) ||| bitWord 8 p.hasZeroize

/-- Whether CAPS says that backend `b` is available: bit id-1 (R34). -/
def available (caps : Word) (b : Backend) : Bool := caps.getLsbD (backendId b - 1)

end Sys2Proof.Machine
end

