-- ==== Sys2Proof/Machine/State.lean ====
section
/-!
DEFINITION. The state of the engine and of the two agents that drive it, the reasons a step can stop, and reset
(spec/10_state.md R30 to R52; spec/70_reset_and_hazards.md R230).
-/

namespace Sys2Proof.Machine

/-- Why the host's program stops. -/
inductive Fault where
  /-- Raised by a host access of another width than 32 bits or at an address that is no multiple of 4
  (spec/20_memory.md R68). The engine reads and writes nothing. Safe: the run stops. -/
  | busError
  /-- Raised by a host access whose address lies outside the 1 KiB window (R60, R74): the spec gives it no register.
  Safe: the run stops. Log 9. -/
  | outsideWindow
  deriving DecidableEq, Repr

/-- What the model gives no meaning. -/
inductive Refusal where
  /-- Raised by an arm of `exec` whose instruction has no meaning yet. Safe. -/
  | notModelled (mnemonic : String)
  /-- Raised by an access of a second host to this instance (R82, U16). Safe: the run stops. Log 10. -/
  | severalHosts
  deriving DecidableEq, Repr

/-- PHASE, the lifecycle of the live context (R31). The code 3 is never held. -/
inductive Phase where
  | uninit | absorb | done
  deriving DecidableEq, Repr

/-- The result codes of ERR (spec/60_exceptions.md R200). The codes 9 to 15 are never produced. -/
inductive ErrCode where
  | ok | illegalCommand | invalidParameter | unavailableBackend | invalidKeyLength | useAfterFinalize
  | notInitialized | notMac | badContext
  deriving DecidableEq, Repr

/-- The parameters I, R, F (8 bits each) and H (7 bits), as PARAM and LP hold them (R12, R30, R36). -/
structure HashParams where
  i : BitVec 8
  r : BitVec 8
  f : BitVec 8
  h : BitVec 7
  deriving DecidableEq, Repr

/-- The 32 state words S[0..31] in logical order (R30, R43; spec/42_backends.md R132). -/
abbrev CoreState := Vector Word 32

/-- A 32-byte block (R9). -/
abbrev Block := Vector Byte 32

/-- The live context (R30): the state of the one hash or MAC object the engine holds. -/
structure Live where
  /-- S[0..31]. -/
  s : CoreState
  /-- BUF[0..31]. -/
  buf : Block
  /-- N, the count of bytes held in BUF. -/
  n : Fin 32
  /-- PHASE. -/
  phase : Phase
  /-- MAC: whether the context was keyed by MAC_INIT. -/
  mac : Bool
  /-- BK: the active backend, `none` for 0. -/
  bk : Option Backend
  /-- LP: the parameters fixed for this object's lifetime. -/
  lp : HashParams
  deriving DecidableEq, Repr

/-- The staging context (R44): 42 words of plain storage. -/
structure Staging where
  /-- CS[0..31]. -/
  cs : CoreState
  /-- CB[0..7]. -/
  cb : Vector Word 8
  /-- CM (R45). -/
  cm : Word
  /-- CP (R46). -/
  cp : Word
  deriving DecidableEq, Repr

/-- The pending command (R48): it exists exactly while BUSY = 1. -/
structure Pending where
  /-- PCMD, the accepted command word. -/
  cw : Word
  /-- The model's own: how many host accesses may still come before the engine's step (R8, U2). Log 4. -/
  wait : Nat
  deriving DecidableEq, Repr

/-- What the outside of the engine does next: the host's accesses and the platform's reset (R8, R76, R230, R244). -/
inductive Event where
  /-- A host read of `bytes` bytes at `addr` (R66, R68). -/
  | read (addr bytes : Nat)
  /-- A host write of `bytes` bytes at `addr` (R67, R68). -/
  | write (addr bytes : Nat) (v : Word)
  /-- The host's loop POLL: read STATUS until bit 0 is 0 (spec/30_encoding.md R100). -/
  | poll
  /-- The reset input is asserted and released (R230 to R232). Log 11. -/
  | reset
  /-- A second host accesses this instance (R82). -/
  | otherHost
  deriving DecidableEq, Repr

/-- One read the host has made (R66, spec/70_reset_and_hazards.md R235, R243). -/
structure HostRead where
  /-- The window offset read. -/
  off : Nat
  /-- The value returned. -/
  value : Word
  /-- Whether R243 counts the value as observed: BUSY was 0, and R235 did not mark the register. Log 23. -/
  specified : Bool
  deriving DecidableEq, Repr

/-- The state of the machine: the parameters of the instance, every register and hidden register of R52, and what is
still to come from outside. -/
structure State where
  /-- ARCH, FEAT, PREF, HAS_ZEROIZE and BASE (R10). No step changes them. -/
  params : Config.Params
  /-- CAPS, latched at reset (R34). -/
  caps : Word
  /-- The live context (R30). -/
  live : Live
  /-- BUSY and PCMD (R35, R48): `none` when BUSY = 0. Log 7. -/
  pending : Option Pending
  /-- STATUS.ESTICKY (R35). -/
  esticky : Bool
  /-- STATUS.OVR (R35). -/
  ovr : Bool
  /-- STATUS.VOK (R35). -/
  vok : Bool
  /-- ERR (R37). -/
  err : ErrCode
  /-- PARAM (R36); its bit 31 always reads 0, so it is not held. -/
  param : HashParams
  /-- DIN[0..7] (R39). -/
  din : Vector Word 8
  /-- KEY[0..15] (R40). -/
  key : Vector Word 16
  /-- TAG[0..15] (R41). -/
  tag : Vector Word 16
  /-- DOUT[0..15] (R42). -/
  dout : Vector Word 16
  /-- The staging context (R44). -/
  staging : Staging
  /-- The model's own: what the host and the platform do next, head first (R76). Log 3. -/
  events : List Event
  /-- The model's own: every read the host has made so far, newest first (R243). Log 3. -/
  returned : List HostRead
  /-- The model's own: the host has written CMD and no STATUS read since has returned BUSY = 0 (R235, R243). Log 23. -/
  unpolled : Bool
  /-- The model's own: how many free values have been drawn. Log 5. -/
  draws : Nat
  deriving DecidableEq, Repr

/-- One step's outcome on this machine. -/
abbrev Result := Host.Outcome State Fault Refusal

/-- STATUS.BUSY: a command is pending (R35, R48). -/
def State.busy (s : State) : Bool := s.pending.isSome

/-- A window of `k` zero words. -/
def zeroWords (k : Nat) : Vector Word k := Vector.replicate k 0

/-- 32 zero bytes. -/
def zeroBlock : Block := Vector.replicate 32 0

/-- The UNINIT context, all zero (R32 item 3, R52). -/
def Live.uninit : Live :=
  { s := zeroWords 32, buf := zeroBlock, n := 0, phase := .uninit, mac := false, bk := none,
    lp := { i := 0, r := 0, f := 0, h := 0 } }

/-- The staging context with every word 0 (R52). -/
def Staging.zero : Staging := { cs := zeroWords 32, cb := zeroWords 8, cm := 0, cp := 0 }

/-- The state after reset of an instance with parameters `p` (R52, R230): CAPS latched, PARAM = 0x40201010, everything
else 0, no command pending; nothing from outside yet. -/
def State.resetWith (p : Config.Params) : State :=
  { params := p, caps := capsOf p, live := Live.uninit, pending := none, esticky := false, ovr := false, vok := false,
    err := .ok, param := { i := 16, r := 16, f := 32, h := 64 }, din := zeroWords 8, key := zeroWords 16,
    tag := zeroWords 16, dout := zeroWords 16, staging := Staging.zero, events := [], returned := [], unpolled := false,
    draws := 0 }

/-- The machine right after reset, for the parameters log 1 names. -/
def State.reset : State := State.resetWith Config.resetParams

end Sys2Proof.Machine
end

