-- ==== Sys2Proof/Machine/Bytes.lean ====
section
/-!
DEFINITION. Bytes of words and of byte windows, little-endian (spec/00_scope.md R16; spec/20_memory.md R63 to R65).
-/

namespace Sys2Proof.Machine

/-- Bits 8k+7 down to 8k of a word: element `k` of `bytes_le` (R16). -/
def byteOf (w : Word) (k : Nat) : Byte := w.extractLsb' (8 * k) 8

/-- `le32`: the word of four bytes, the first the least significant (R16). -/
def le32 (b0 b1 b2 b3 : Byte) : Word :=
  b0.setWidth 32 ||| (b1.setWidth 32 <<< 8) ||| (b2.setWidth 32 <<< 16) ||| (b3.setWidth 32 <<< 24)

/-- `WinByte(W, j)` (R63): byte `j` of a window of `k` words, for `j` below `4 * k`. -/
def winByte {k : Nat} (w : Vector Word k) (j : Nat) : Byte := byteOf (w[j / 4]?.getD 0) (j % 4)

/-- The whole byte string a window holds, byte 0 first (R63). -/
def bytesOf {k : Nat} (w : Vector Word k) : List Byte := (List.range (4 * k)).map (winByte w)

/-- The window of `k` words whose byte `j` is `f j` (R63). -/
def packBytes (k : Nat) (f : Nat → Byte) : Vector Word k :=
  Vector.ofFn fun i => le32 (f (4 * i.val)) (f (4 * i.val + 1)) (f (4 * i.val + 2)) (f (4 * i.val + 3))

/-- Byte `j` of a block, for `j` below 32. -/
def blockByte (b : Block) (j : Nat) : Byte := b[j]?.getD 0

/-- Word `k` of a block, read little-endian (R64). -/
def blockWord (b : Block) (k : Nat) : Word :=
  le32 (blockByte b (4 * k)) (blockByte b (4 * k + 1)) (blockByte b (4 * k + 2)) (blockByte b (4 * k + 3))

/-- The 32 bytes of a window from byte `start` on, as a block. -/
def windowBlock {k : Nat} (w : Vector Word k) (start : Nat) : Block := Vector.ofFn fun j => winByte w (start + j.val)

end Sys2Proof.Machine
end

