-- ==== Sys2Proof/Machine/Permutation.lean ====
section
/-!
DEFINITION. The permutation core: SUBROUND, ROUND, ROUNDS, CORE_INIT, CORE_ABSORB, CORE_FINAL and OUT
(spec/41_permutation_core.md R110 to R118).
-/

namespace Sys2Proof.Machine

/-- Sixteen lanes of 32 bits: the half A or the half B (R111, R120). -/
abbrev Half := Vector Word 16

/-- `rotl32(x, r)` for 0 < r < 32 (spec/00_scope.md R14, R110). -/
def rotl32 (x : Word) (r : Nat) : Word := (x <<< r) ||| (x >>> (32 - r))

/-- A = S[0..15] (R15). -/
def halfA (s : CoreState) : Half := Vector.ofFn fun i => s[i.val]

/-- B = S[16..31] (R15). -/
def halfB (s : CoreState) : Half := Vector.ofFn fun i => s[16 + i.val]

/-- The state whose halves are A and B (R15). -/
def joinHalves (a b : Half) : CoreState := Vector.ofFn fun i => if h : i.val < 16 then a[i.val] else b[i.val - 16]

/-- P_m: lane i is lane i xor m of the argument (R111, R120). -/
def permuteLanes (m : Fin 16) (x : Half) : Half := Vector.ofFn fun i => x[i ^^^ m]

/-- Lane-wise addition modulo 2^32 (R110, R120). -/
def addLanes (x y : Half) : Half := Vector.ofFn fun i => x[i] + y[i]

/-- Lane-wise exclusive or (R110, R120). -/
def xorLanes (x y : Half) : Half := Vector.ofFn fun i => x[i] ^^^ y[i]

/-- Lane-wise rotation (R110, R120). -/
def rotlLanes (x : Half) (r : Nat) : Half := Vector.ofFn fun i => rotl32 x[i] r

/-- SUBROUND(r, m1, m2) (R112, in the lane view of R120). B_old of step 4 is B as step 1 leaves it. -/
def subround (r : Nat) (m1 m2 : Fin 16) (s : CoreState) : CoreState :=
  let a := halfA s
  let b1 := addLanes (halfB s) a
  let a' := rotlLanes (permuteLanes m1 a) r
  joinHalves (xorLanes a' b1) (permuteLanes m2 b1)

/-- ROUND (R113). -/
def cubeRound (s : CoreState) : CoreState := subround 11 4 1 (subround 7 8 2 s)

/-- ROUNDS(n): ROUND applied n times (R114). -/
def rounds : Nat → CoreState → CoreState
  | 0, s => s
  | n + 1, s => rounds n (cubeRound s)

/-- The state CORE_INIT starts its rounds from: (H, 32, R, 0, ..., 0) (R115). -/
def seedState (r : BitVec 8) (h : BitVec 7) : CoreState :=
  (((zeroWords 32).set 0 (h.setWidth 32)).set 1 32).set 2 (r.setWidth 32)

/-- CORE_INIT(I, R, H) (R115). -/
def coreInit (i r : BitVec 8) (h : BitVec 7) : CoreState := rounds i.toNat (seedState r h)

/-- The block's eight words xored into A[0..7] (R116). -/
def xorBlock (s : CoreState) (blk : Block) : CoreState :=
  Vector.ofFn fun k => if k.val < 8 then s[k] ^^^ blockWord blk k.val else s[k]

/-- CORE_ABSORB(blk, R) (R116). -/
def coreAbsorb (s : CoreState) (blk : Block) (r : BitVec 8) : CoreState := rounds r.toNat (xorBlock s blk)

/-- The state CORE_FINAL leaves: bit 0 of B[15] flipped once, then F rounds (R117). -/
def coreFinal (s : CoreState) (f : BitVec 8) : CoreState := rounds f.toNat (s.set 31 (s[31] ^^^ 1))

/-- OUT(S, H): the first H bytes of the state's words, each little-endian (R118, spec/20_memory.md R65). -/
def coreOut (s : CoreState) (h : BitVec 7) : List Byte := (bytesOf s).take h.toNat

end Sys2Proof.Machine
end

