-- ==== Sys2Proof/Machine/Flags.lean ====
section
/-!
DEFINITION. Result codes, the STATUS word and the completion of a command (spec/10_state.md R35, R45, R51;
spec/60_exceptions.md R200, R201). The engine has no arithmetic flags (R51).
-/

namespace Sys2Proof.Machine

/-- The code of ERR[3:0] (R200). -/
def errWord : ErrCode → Word
  | .ok => 0
  | .illegalCommand => 1
  | .invalidParameter => 2
  | .unavailableBackend => 3
  | .invalidKeyLength => 4
  | .useAfterFinalize => 5
  | .notInitialized => 6
  | .notMac => 7
  | .badContext => 8

/-- The two-bit code of PHASE (R31). -/
def phaseCode : Phase → Word
  | .uninit => 0
  | .absorb => 1
  | .done => 2

/-- The three-bit code of BK: 0 for none (R30, R130). -/
def bkCode : Option Backend → Word
  | none => 0
  | some b => BitVec.ofNat 32 (backendId b)

/-- PHASE, MAC, BK and N at the bits they have in STATUS and in CM (R35, R45). -/
def contextFields (c : Live) : Word :=
  (phaseCode c.phase <<< 4) ||| bitWord 6 c.mac ||| (bkCode c.bk <<< 8) ||| (BitVec.ofNat 32 c.n.val <<< 16)

/-- The STATUS word (R35). -/
def statusWord (s : State) : Word :=
  bitWord 0 s.busy ||| bitWord 1 s.esticky ||| bitWord 2 s.ovr ||| bitWord 3 s.vok ||| contextFields s.live

/-- COMPLETE(code, eq) (R201): how the engine's step ends every command. `eq` is VERIFY's comparison result, false for
every other command. The command word is not kept (R200, R52: log 7). -/
def complete (code : ErrCode) (eq : Bool) (s : State) : State :=
  { s with err := code, esticky := s.esticky || decide (code ≠ .ok), vok := decide (code = .ok) && eq, pending := none }

/-- `complete` of a command's pseudocode that is no VERIFY: COMPLETE(OK, 0) (R18, R201). -/
def finish (s : State) : Result := .next (complete .ok false s)

/-- `raise E` of a command's pseudocode: COMPLETE(E, 0) with the rest of the command not performed (R18, R201, R202).
This is the one way a command's error is taken: the engine has no trap entry (R208) and no return from one (R209). -/
def raise (e : ErrCode) (s : State) : Result := .next (complete e false s)

end Sys2Proof.Machine
end

