-- ==== Sys2Proof/Machine/Operands.lean ====
section
/-!
DEFINITION. The operand forms: the words PARAM, CM and CP hold, and the registers of the window by offset
(spec/10_state.md R36, R45, R46; spec/20_memory.md R61, R62, R66).
-/

namespace Sys2Proof.Machine

/-- The PARAM layout (R36): I, R, F, H from bit 0 up, bit 31 zero. -/
def paramWord (p : HashParams) : Word :=
  p.i.setWidth 32 ||| (p.r.setWidth 32 <<< 8) ||| (p.f.setWidth 32 <<< 16) ||| (p.h.setWidth 32 <<< 24)

/-- The fields of a word in the PARAM layout; bit 31 is dropped (R36, R46, R67). -/
def paramOfWord (w : Word) : HashParams :=
  { i := w.extractLsb' 0 8, r := w.extractLsb' 8 8, f := w.extractLsb' 16 8, h := w.extractLsb' 24 7 }

/-- H is legal: 1 to 64 (R12, R36). -/
def legalH (h : BitVec 7) : Bool := decide (1 ≤ h.toNat) && decide (h.toNat ≤ 64)

/-- CM[5:4] (R45); the value 3 is no phase. -/
def cmPhase (cm : Word) : Option Phase :=
  match (cm.extractLsb' 4 2).toNat with
  | 0 => some .uninit
  | 1 => some .absorb
  | 2 => some .done
  | _ => none

/-- CM[6] (R45). -/
def cmMac (cm : Word) : Bool := cm.getLsbD 6

/-- CM[10:8] (R45). -/
def cmBk (cm : Word) : BitVec 3 := cm.extractLsb' 8 3

/-- CM[20:16] (R45). -/
def cmN (cm : Word) : Fin 32 := (cm.extractLsb' 16 5).toFin

/-- Whether a reserved bit of CM is set (R45, spec/46_context_commands.md R182). -/
def cmReserved (cm : Word) : Bool := decide (cm &&& ~~~(0x001F0770 : Word) ≠ 0)

/-- The backend of an id field; 0, 6 and 7 name none (R130, R182). -/
def backendOfId (k : BitVec 3) : Option Backend :=
  match k.toNat with
  | 1 => some .soft
  | 2 => some .sse2
  | 3 => some .avx2
  | 4 => some .avx512
  | 5 => some .neon
  | _ => none

/-- The registers of the window (R61). -/
inductive Reg where
  | id | caps | status | err | param | cmd
  | din (k : Fin 8) | key (k : Fin 16) | tag (k : Fin 16) | dout (k : Fin 16)
  | cs (k : Fin 32) | cb (k : Fin 8) | cm | cp
  | reserved
  deriving DecidableEq, Repr

/-- The register at an offset that is a multiple of 4 below 0x400 (R61); the offsets the map leaves out are reserved
(R62). -/
def regAt (off : Nat) : Reg :=
  if off = 0x000 then .id
  else if off = 0x004 then .caps
  else if off = 0x008 then .status
  else if off = 0x00C then .err
  else if off = 0x010 then .param
  else if off = 0x014 then .cmd
  else if h : 0x040 ≤ off ∧ off < 0x060 then .din ⟨(off - 0x040) / 4, by omega⟩
  else if h : 0x080 ≤ off ∧ off < 0x0C0 then .key ⟨(off - 0x080) / 4, by omega⟩
  else if h : 0x0C0 ≤ off ∧ off < 0x100 then .tag ⟨(off - 0x0C0) / 4, by omega⟩
  else if h : 0x100 ≤ off ∧ off < 0x140 then .dout ⟨(off - 0x100) / 4, by omega⟩
  else if h : 0x200 ≤ off ∧ off < 0x280 then .cs ⟨(off - 0x200) / 4, by omega⟩
  else if h : 0x280 ≤ off ∧ off < 0x2A0 then .cb ⟨(off - 0x280) / 4, by omega⟩
  else if off = 0x2A0 then .cm
  else if off = 0x2A4 then .cp
  else .reserved

/-- The offset of a register (R61); a reserved one is given the first reserved offset. -/
def regOffset : Reg → Nat
  | .id => 0x000
  | .caps => 0x004
  | .status => 0x008
  | .err => 0x00C
  | .param => 0x010
  | .cmd => 0x014
  | .din k => 0x040 + 4 * k.val
  | .key k => 0x080 + 4 * k.val
  | .tag k => 0x0C0 + 4 * k.val
  | .dout k => 0x100 + 4 * k.val
  | .cs k => 0x200 + 4 * k.val
  | .cb k => 0x280 + 4 * k.val
  | .cm => 0x2A0
  | .cp => 0x2A4
  | .reserved => 0x018

/-- The constant of ID (R33). -/
def idWord : Word := 0x43554248

/-- What a read of a register returns while BUSY = 0, and its exact value at any time (R66). CMD and KEY are write-only and
read 0; reserved offsets read 0 (R62). -/
def regValue (s : State) : Reg → Word
  | .id => idWord
  | .caps => s.caps
  | .status => statusWord s
  | .err => errWord s.err
  | .param => paramWord s.param
  | .cmd => 0
  | .din k => s.din[k]
  | .key _ => 0
  | .tag k => s.tag[k]
  | .dout k => s.dout[k]
  | .cs k => s.staging.cs[k]
  | .cb k => s.staging.cb[k]
  | .cm => s.staging.cm
  | .cp => s.staging.cp
  | .reserved => 0

end Sys2Proof.Machine
end

