-- ==== Sys2Proof/Machine/Ops.lean ====
section
/-!
DEFINITION. The operations the commands share: the streaming buffer, the phase check, backend selection, the digest
window and the start of a new object (spec/43_dispatcher.md R142, R143; spec/44_hash_commands.md R150 to R153).
Taking an error and completing are `raise`, `finish` and `complete` of Flags.lean.
-/

namespace Sys2Proof.Machine

/-- BUF_APPEND(b) (R151): a block is absorbed as soon as the buffer holds 32 bytes, and the buffer is cleared. -/
def bufAppend (c : Live) (b : Byte) : Live :=
  let buf := c.buf.set c.n.val b
  if h : c.n.val + 1 < 32 then { c with buf := buf, n := ⟨c.n.val + 1, h⟩ }
  else { c with s := coreAbsorb c.s buf c.lp.r, buf := zeroBlock, n := 0 }

/-- BUF_APPEND of each byte in order (R155). -/
def bufAppendAll (c : Live) (bs : List Byte) : Live := bs.foldl bufAppend c

/-- PAD_BLOCK (R152): 0x80 at position N, one block absorbed, the buffer cleared. There is no second block
(spec/90_conflicts.md C2). -/
def padBlock (c : Live) : Live :=
  { c with s := coreAbsorb c.s (c.buf.set c.n.val 0x80) c.lp.r, buf := zeroBlock, n := 0 }

/-- GUARD_ABSORB (R153): the error of a phase that is not ABSORB. -/
def guardAbsorb (c : Live) : Option ErrCode :=
  match c.phase with
  | .uninit => some .notInitialized
  | .absorb => none
  | .done => some .useAfterFinalize

/-- SELECT_EXPLICIT(k) (R142): the named backend, or none when CAPS says it is absent. -/
def selectExplicit (caps : Word) (b : Backend) : Option Backend := if available caps b then some b else none

/-- SELECT_AUTO (R143): the first backend of PREF that CAPS says is present. The end of PREF is Soft and CAPS[0] = 1,
so the search always finds one; where CAPS[0] is 0, which no reset latches, the answer is Soft too (log 19). -/
def selectAuto (p : Config.Params) (caps : Word) : Backend := (p.pref.find? (available caps)).getD .soft

/-- The backend a selector chooses (R154, R171). -/
def selectBackend (s : State) : Selector → Option Backend
  | .auto => some (selectAuto s.params s.caps)
  | .named b => selectExplicit s.caps b

/-- A new object in phase ABSORB (R154, R171): LP from PARAM, empty buffer, core state `st`, backend `k`. -/
def startObject (p : HashParams) (st : CoreState) (mac : Bool) (k : Backend) : Live :=
  { s := st, buf := zeroBlock, n := 0, phase := .absorb, mac := mac, bk := some k, lp := p }

/-- The digest window (R156): byte j is `out[j]` for j below the output's length and 0 above. -/
def digestWindow (out : List Byte) : Vector Word 16 := packBytes 16 fun j => out.getD j 0

/-- The context after PAD_BLOCK and CORE_FINAL (R156, R172). Its PHASE is not yet changed. -/
def finalized (c : Live) : Live := { padBlock c with s := coreFinal (padBlock c).s c.lp.f }

/-- The digest or tag of a context: OUT of CORE_FINAL after PAD_BLOCK (R117, R156, R172). -/
def digestOf (c : Live) : List Byte := coreOut (finalized c).s c.lp.h

end Sys2Proof.Machine
end

