-- ==== Sys2Proof/Machine/Context.lean ====
section
/-!
DEFINITION. NOP, CTX_SAVE, CTX_LOAD and ZEROIZE (spec/46_context_commands.md R180 to R183).
-/

namespace Sys2Proof.Machine

/-- NOP (R180). -/
def execNop (s : State) : Result := finish s

/-- The staging copy of a context (R181, R45, R46). -/
def stageContext (c : Live) : Staging :=
  { cs := c.s, cb := packBytes 8 (blockByte c.buf), cm := contextFields c, cp := paramWord c.lp }

/-- CTX_SAVE (R181). -/
def execCtxSave (s : State) : Result := finish { s with staging := stageContext s.live }

/-- What CTX_LOAD makes of the staging context (R182), its checks in the rule's order: the context to hold, or the
error to raise. -/
def loadContext (caps : Word) (g : Staging) : Except ErrCode Live :=
  if cmReserved g.cm then .error .badContext
  else
    match cmPhase g.cm with
    | none => .error .badContext
    | some .uninit =>
      if cmMac g.cm = true ∨ cmBk g.cm ≠ 0 ∨ cmN g.cm ≠ 0 then .error .badContext else .ok Live.uninit
    | some ph =>
      if ph = .done ∧ cmN g.cm ≠ 0 then .error .badContext
      else if g.cp.getLsbD 31 then .error .badContext
      else if legalH (paramOfWord g.cp).h then
        match backendOfId (cmBk g.cm) with
        | none => .error .badContext
        | some k =>
          if available caps k then
            .ok
              { s := g.cs
                buf := Vector.ofFn fun j => if j.val < (cmN g.cm).val then winByte g.cb j.val else 0
                n := cmN g.cm
                phase := ph
                mac := cmMac g.cm
                bk := some k
                lp := paramOfWord g.cp }
          else .error .unavailableBackend
      else .error .badContext

/-- CTX_LOAD (R182). -/
def execCtxLoad (s : State) : Result :=
  match loadContext s.caps s.staging with
  | .ok c => finish { s with live := c }
  | .error e => raise e s

/-- ZEROIZE (R183): illegal without the secure-erase capability; keeps PARAM, CAPS, ID, ESTICKY and OVR. -/
def execZeroize (s : State) : Result :=
  if s.params.hasZeroize then
    finish
      { s with
        live := Live.uninit
        din := zeroWords 8
        key := zeroWords 16
        tag := zeroWords 16
        dout := zeroWords 16
        staging := Staging.zero }
  else raise .illegalCommand s

end Sys2Proof.Machine
end

