-- ==== Sys2Proof/Machine/Hash.lean ====
section
/-!
DEFINITION. The hash commands INIT, UPDATE and FINAL (spec/44_hash_commands.md R154 to R156).
-/

namespace Sys2Proof.Machine

/-- INIT (R154); errors in the order of spec/60_exceptions.md R203. -/
def execInit (bk : Selector) (s : State) : Result :=
  if legalH s.param.h then
    match selectBackend s bk with
    | some k =>
      finish
        { s with
          live := startObject s.param (coreInit s.param.i s.param.r s.param.h) false k
          dout := zeroWords 16 }
    | none => raise .unavailableBackend s
  else raise .invalidParameter s

/-- UPDATE (R155): the first LEN bytes of DIN go through BUF_APPEND. -/
def execUpdate (len : BitVec 7) (s : State) : Result :=
  if 32 < len.toNat then raise .illegalCommand s
  else
    match guardAbsorb s.live with
    | some e => raise e s
    | none => finish { s with live := bufAppendAll s.live ((bytesOf s.din).take len.toNat) }

/-- FINAL (R156). -/
def execFinal (s : State) : Result :=
  match guardAbsorb s.live with
  | some e => raise e s
  | none => finish { s with live := { finalized s.live with phase := .done }, dout := digestWindow (digestOf s.live) }

end Sys2Proof.Machine
end

