-- ==== Sys2Proof/Machine/Mac.lean ====
section
/-!
DEFINITION. The MAC commands MAC_INIT and VERIFY (spec/45_mac_commands.md R171, R172).
-/

namespace Sys2Proof.Machine

/-- The core state of a MAC object: CORE_INIT, then the two blocks of the key (R171). -/
def macState (p : HashParams) (key : Vector Word 16) : CoreState :=
  coreAbsorb (coreAbsorb (coreInit p.i p.r p.h) (windowBlock key 0) p.r) (windowBlock key 32) p.r

/-- MAC_INIT (R171): KEY is cleared whatever the result code; errors in the order of spec/60_exceptions.md R203. -/
def execMacInit (keylen : BitVec 7) (bk : Selector) (s : State) : Result :=
  let cleared := { s with key := zeroWords 16 }
  if legalH s.param.h then
    if keylen.toNat = 64 then
      match selectBackend s bk with
      | some k =>
        finish { cleared with live := startObject s.param (macState s.param s.key) true k, dout := zeroWords 16 }
      | none => raise .unavailableBackend cleared
    else raise .invalidKeyLength cleared
  else raise .invalidParameter cleared

/-- d of R172: the or over all 64 positions of the differences at the positions below H. -/
def tagDiff (tag : Vector Word 16) (h : BitVec 7) (t : List Byte) : Byte :=
  (List.range 64).foldl (fun d j => if j < h.toNat then d ||| (winByte tag j ^^^ t.getD j 0) else d) 0

/-- VERIFY (R172): the live context is copied, never changed; a mismatch is no error. -/
def execVerify (taglen : BitVec 7) (s : State) : Result :=
  if 64 < taglen.toNat then raise .illegalCommand s
  else
    match guardAbsorb s.live with
    | some e => raise e s
    | none =>
      if s.live.mac then
        .next (complete .ok (decide (tagDiff s.tag s.live.lp.h (digestOf s.live) = 0) && decide (taglen = s.live.lp.h)) s)
      else raise .notMac s

end Sys2Proof.Machine
end

