-- ==== Sys2Proof/Machine/Dispatch.lean ====
section
/-!
DEFINITION. Which meaning each command has: one arm per constructor of Instr.
-/

namespace Sys2Proof.Machine

-- The engine performs one command and completes it.
def exec (i : Instr) (s : State) : Host.Outcome State Fault Refusal :=
  match i with
  | .nop => Sys2Proof.Machine.execNop s
  | .init bk => Sys2Proof.Machine.execInit bk s
  | .update len => Sys2Proof.Machine.execUpdate len s
  | .final => Sys2Proof.Machine.execFinal s
  | .macInit keylen bk => Sys2Proof.Machine.execMacInit keylen bk s
  | .verify taglen => Sys2Proof.Machine.execVerify taglen s
  | .ctxSave => Sys2Proof.Machine.execCtxSave s
  | .ctxLoad => Sys2Proof.Machine.execCtxLoad s
  | .zeroize => Sys2Proof.Machine.execZeroize s

end Sys2Proof.Machine
end

