-- ==== Sys2Proof/Machine/HostAccess.lean ====
section
/-!
DEFINITION. The host's accesses to the register window, the acceptance of a command, the reset event, and the host agent's
move (spec/20_memory.md R66 to R73; spec/70_reset_and_hazards.md R230, R231; spec/30_encoding.md R100).
-/

namespace Sys2Proof.Machine

/-- The window offset a host access reaches, or the fault it takes (R60, R68, R74). -/
def windowOffset (p : Config.Params) (addr bytes : Nat) : Except Fault Nat :=
  if p.base ≤ addr ∧ addr < p.base + 0x400 then
    if bytes = 4 ∧ addr % 4 = 0 then .ok (addr - p.base) else .error .busError
  else .error .outsideWindow

/-- Whether a read of a register while BUSY = 1 is a draw (R73): the registers R73 names, STATUS apart. Log 6. -/
def drawnWhileBusy : Reg → Bool
  | .id => false
  | .caps => false
  | .status => false
  | .err => true
  | .param => false
  | .cmd => false
  | .din _ => true
  | .key _ => false
  | .tag _ => true
  | .dout _ => true
  | .cs _ => true
  | .cb _ => true
  | .cm => true
  | .cp => true
  | .reserved => false

/-- The value a host read returns (R66, R73). While BUSY = 1, STATUS gives BUSY and OVR exactly and a free value in every other
bit, and the registers of R73 give a free value. -/
def readValue (s : State) (r : Reg) : Word :=
  if s.busy then
    if r = .status then (Config.freeRead s.draws &&& ~~~(5 : Word)) ||| (statusWord s &&& 5)
    else if drawnWhileBusy r then Config.freeRead s.draws
    else regValue s r
  else regValue s r

/-- Whether the value of a host read is specified (R235, R243): BUSY = 0, and, until a STATUS read has returned BUSY = 0
since the last CMD write, not a register of R235, which are those of R73. Log 23. -/
def readSpecified (s : State) (r : Reg) : Bool := !s.busy && !(s.unpolled && drawnWhileBusy r)

/-- A host read of the register at `off` (R66): the engine's state is unchanged (R69); the host has the value, a read of
STATUS that returns BUSY = 0 ends the wait of R235, and a read while BUSY = 1 uses up one free value. -/
def hostRead (off : Nat) (s : State) : State :=
  { s with
    returned :=
      { off := off, value := readValue s (regAt off), specified := readSpecified s (regAt off) } :: s.returned
    unpolled := s.unpolled && (s.busy || decide (regAt off ≠ .status))
    draws := if s.busy then s.draws + 1 else s.draws }

/-- Acceptance of a command word (R70): the number of host accesses before the engine's step is a free value. -/
def acceptCommand (v : Word) (s : State) : State :=
  { s with pending := some { cw := v, wait := Config.latency s.draws }, draws := s.draws + 1 }

/-- A write of 1s to STATUS (R35, R67): bit 1 clears ESTICKY, bit 2 clears OVR. -/
def writeStatus (v : Word) (s : State) : State :=
  { s with esticky := s.esticky && !v.getLsbD 1, ovr := s.ovr && !v.getLsbD 2 }

/-- A write that is taken only while BUSY = 0; while BUSY = 1 it is dropped and sets OVR (R67, R71). -/
def takeUnlessBusy (s taken : State) : State := if s.busy then { s with ovr := true } else taken

/-- A host write of `v` to a register (R67, R71). After any CMD write, a dropped one too, the host has to read STATUS with
BUSY = 0 (R243). -/
def writeReg (r : Reg) (v : Word) (s : State) : State :=
  match r with
  | .status => writeStatus v s
  | .id => s
  | .caps => s
  | .err => s
  | .dout _ => s
  | .reserved => s
  | .cmd => { takeUnlessBusy s (acceptCommand v s) with unpolled := true }
  | .param => takeUnlessBusy s { s with param := paramOfWord v }
  | .din k => takeUnlessBusy s { s with din := s.din.set k v }
  | .key k => takeUnlessBusy s { s with key := s.key.set k v }
  | .tag k => takeUnlessBusy s { s with tag := s.tag.set k v }
  | .cs k => takeUnlessBusy s { s with staging := { s.staging with cs := s.staging.cs.set k v } }
  | .cb k => takeUnlessBusy s { s with staging := { s.staging with cb := s.staging.cb.set k v } }
  | .cm => takeUnlessBusy s { s with staging := { s.staging with cm := v } }
  | .cp => takeUnlessBusy s { s with staging := { s.staging with cp := v } }

/-- `MemWrite(BASE + off, 4, v)` (R67). -/
def hostWrite (off : Nat) (v : Word) (s : State) : State := writeReg (regAt off) v s

/-- Reset (R230, R231): every piece of the engine's state takes its reset value, a pending command is abandoned; what is still
to come from outside, what the host has read and has still to poll, and the count of draws are not the engine's. -/
def resetEngine (s : State) : State :=
  { State.resetWith s.params with events := s.events, returned := s.returned, unpolled := s.unpolled,
                                   draws := s.draws }

/-- One more host access has come between acceptance and completion (R8, U2). -/
def countAccess (s : State) : State :=
  { s with pending := s.pending.map fun p => { p with wait := p.wait - 1 } }

/-- The host agent's move on event `e`, which is no longer to come (`s` has the later events only). A poll that reads
BUSY = 1 is still to come (R100). -/
def hostEvent (e : Event) (s : State) : Result :=
  match e with
  | .read addr bytes =>
    match windowOffset s.params addr bytes with
    | .ok off => .next (countAccess (hostRead off s))
    | .error f => .fault f
  | .write addr bytes v =>
    match windowOffset s.params addr bytes with
    | .ok off => .next (if s.busy then countAccess (hostWrite off v s) else hostWrite off v s)
    | .error f => .fault f
  | .poll =>
    let t := countAccess (hostRead 0x008 s)
    .next (if (readValue s .status).getLsbD 0 then { t with events := .poll :: t.events } else t)
  | .reset => .next (resetEngine s)
  | .otherHost => .refused .severalHosts

/-- The host agent's move: the first event, or nothing when there is none (log 15). -/
def hostStep (s : State) : Result :=
  match s.events with
  | [] => .next s
  | e :: rest => hostEvent e { s with events := rest }

end Sys2Proof.Machine
end

