-- ==== Sys2Proof/Machine/Step.lean ====
section
/-!
DEFINITION. One step of the machine: the engine's or the host's (spec/00_scope.md R8; spec/20_memory.md R70).
-/

namespace Sys2Proof.Machine

/-- The engine's step: the pending command word is decoded and performed; an illegal one completes with ILLEGAL_COMMAND
(R70, R95, R201). -/
def engineStep (cw : Word) (s : State) : Host.Outcome State Fault Refusal :=
  match decode s.params.hasZeroize cw with
  | .ok i => exec i s
  | .error _ => raise .illegalCommand s

/-- One step (R8). The engine can move only while a command is pending; the host while it has an access to make. While both
can, the host's accesses come first until as many have come as the free value drawn at acceptance says (log 4). -/
def step (s : State) : Host.Outcome State Fault Refusal :=
  match s.pending with
  | none => hostStep s
  | some p => if p.wait = 0 ∨ s.events = [] then engineStep p.cw s else hostStep s

/-- `s` with the word of `nbits` bits `w` as the pending command, about to be performed: where `step` takes its next command
word from. The engine fetches nothing (R47); a command arrives as the value of one CMD write. Log 16. -/
def State.withFetchWord (s : State) (nbits w : Nat) : State :=
  { s with pending := some { cw := BitVec.ofNat 32 (w % 2 ^ nbits), wait := 0 }, unpolled := true }

end Sys2Proof.Machine
end

