-- ==== Sys2Proof/Machine/Backends.lean ====
section
/-!
DEFINITION. The five backend modules (spec/42_backends.md R130 to R136): each with a layout and operations of its own that meet
the contract of R132, and the machine whose live context lies in the layout of the active backend and which reaches the core
through these operations alone. The model itself holds the state in logical order only, as R132 says a model does. Log 12.
-/

namespace Sys2Proof.Machine

/-- The native width of a backend in bits (R130); read by no rule. -/
def backendWidth : Backend → Nat
  | .soft => 32
  | .sse2 => 128
  | .avx2 => 256
  | .avx512 => 512
  | .neon => 128

/-- How many native registers hold the 1024 bits of state (R130). -/
def backendRegisters (b : Backend) : Nat := 1024 / backendWidth b

/-- A layout `Rep_k` with its bijection `enc_k` and inverse `dec_k` (R131), the three operations of R133, and the contract of
R132 they meet. `finalize` also leaves the state CORE_FINAL leaves, which FINAL keeps
(spec/44_hash_commands.md R156); R132's `final_k` gives OUT alone. DEDUCED: log 12. -/
structure BackendModule where
  Rep : Type
  enc : CoreState → Rep
  dec : Rep → CoreState
  init : BitVec 8 → BitVec 8 → BitVec 7 → Rep
  absorb : Rep → Block → BitVec 8 → Rep
  finalize : Rep → BitVec 8 → BitVec 7 → Rep × List Byte
  dec_enc : ∀ s, dec (enc s) = s
  enc_dec : ∀ x, enc (dec x) = x
  init_enc : ∀ i r h, init i r h = enc (coreInit i r h)
  absorb_enc : ∀ s blk r, absorb (enc s) blk r = enc (coreAbsorb s blk r)
  finalize_enc : ∀ s f h, finalize (enc s) f h = (enc (coreFinal s f), coreOut (coreFinal s f) h)

/-- One module for each backend id. -/
abbrev BackendModules := Backend → BackendModule

/-- An object that INIT, MAC_INIT or CTX_LOAD started: its state lies in the layout of the active backend (R131, R134). -/
structure HeldObject (m : BackendModules) where
  backend : Backend
  rep : (m backend).Rep
  buf : Block
  n : Fin 32
  done : Bool
  mac : Bool
  lp : HashParams

/-- The machine with backends: `held` in place of the live context, `none` for the UNINIT one, which is all zero and in no
backend's layout (R134, spec/10_state.md R32; DEDUCED: log 12); `rest` is the rest of the state, whose own
live context is not used. -/
structure BackendState (m : BackendModules) where
  rest : State
  held : Option (HeldObject m)

/-- The live context in logical order, `dec_k` of the representation (R131). -/
def logicalLive {m : BackendModules} : Option (HeldObject m) → Live
  | none => Live.uninit
  | some o =>
    { s := (m o.backend).dec o.rep, buf := o.buf, n := o.n, phase := if o.done then .done else .absorb, mac := o.mac
      bk := some o.backend, lp := o.lp }

/-- What the host can see: the model's state with the live context in logical order. -/
def BackendState.logical {m : BackendModules} (x : BackendState m) : State := { x.rest with live := logicalLive x.held }

/-- The move of a logical context into the backend it names (R133, R135): the context CTX_LOAD accepts names one, or is the
UNINIT one. -/
def holdContext (m : BackendModules) (c : Live) : Option (HeldObject m) :=
  c.bk.map fun k =>
    { backend := k, rep := (m k).enc c.s, buf := c.buf, n := c.n, done := decide (c.phase = .done), mac := c.mac, lp := c.lp }

/-- A command completes with OK on this machine, its result in `x`. -/
def backendFinish {m : BackendModules} (x : BackendState m) : BackendState m := { x with rest := complete .ok false x.rest }

/-- A command raises an error on this machine. -/
def backendRaise {m : BackendModules} (e : ErrCode) (x : BackendState m) : BackendState m :=
  { x with rest := complete e false x.rest }

/-- A new object (spec/44_hash_commands.md R154, spec/45_mac_commands.md R171). -/
def backendStart {m : BackendModules} (p : HashParams) (k : Backend) (rep : (m k).Rep) (mac : Bool) : HeldObject m :=
  { backend := k, rep := rep, buf := zeroBlock, n := 0, done := false, mac := mac, lp := p }

/-- GUARD_ABSORB (spec/44_hash_commands.md R153): the object in ABSORB, or the error. -/
def backendGuard {m : BackendModules} : Option (HeldObject m) → Except ErrCode (HeldObject m)
  | none => .error .notInitialized
  | some o => if o.done then .error .useAfterFinalize else .ok o

/-- BUF_APPEND (R151) through the backend's `absorb_block`. -/
def backendAppend {m : BackendModules} (o : HeldObject m) (b : Byte) : HeldObject m :=
  let buf := o.buf.set o.n.val b
  if h : o.n.val + 1 < 32 then { o with buf := buf, n := ⟨o.n.val + 1, h⟩ }
  else { o with rep := (m o.backend).absorb o.rep buf o.lp.r, buf := zeroBlock, n := 0 }

/-- PAD_BLOCK through `absorb_block`, then `finalize` (R152, R156). -/
def backendDigest {m : BackendModules} (o : HeldObject m) : (m o.backend).Rep × List Byte :=
  (m o.backend).finalize ((m o.backend).absorb o.rep (o.buf.set o.n.val 0x80) o.lp.r) o.lp.f o.lp.h

/-- Every command on the machine with backends, from its own rule. -/
def backendExec (m : BackendModules) (i : Instr) (x : BackendState m) : BackendState m :=
  let s := x.rest
  match i with
  | .nop => backendFinish x
  | .init bk =>
    if legalH s.param.h then
      match selectBackend s bk with
      | some k =>
        backendFinish
          { rest := { s with dout := zeroWords 16 }
            held := some (backendStart s.param k ((m k).init s.param.i s.param.r s.param.h) false) }
      | none => backendRaise .unavailableBackend x
    else backendRaise .invalidParameter x
  | .update len =>
    if 32 < len.toNat then backendRaise .illegalCommand x
    else
      match backendGuard x.held with
      | .error e => backendRaise e x
      | .ok o => backendFinish { x with held := some (((bytesOf s.din).take len.toNat).foldl backendAppend o) }
  | .final =>
    match backendGuard x.held with
    | .error e => backendRaise e x
    | .ok o =>
      backendFinish
        { rest := { s with dout := digestWindow (backendDigest o).2 }
          held := some { o with rep := (backendDigest o).1, buf := zeroBlock, n := 0, done := true } }
  | .macInit keylen bk =>
    let cleared : BackendState m := { x with rest := { s with key := zeroWords 16 } }
    if legalH s.param.h then
      if keylen.toNat = 64 then
        match selectBackend s bk with
        | some k =>
          let first := (m k).absorb ((m k).init s.param.i s.param.r s.param.h) (windowBlock s.key 0) s.param.r
          backendFinish
            { rest := { s with key := zeroWords 16, dout := zeroWords 16 }
              held := some (backendStart s.param k ((m k).absorb first (windowBlock s.key 32) s.param.r) true) }
        | none => backendRaise .unavailableBackend cleared
      else backendRaise .invalidKeyLength cleared
    else backendRaise .invalidParameter cleared
  | .verify taglen =>
    if 64 < taglen.toNat then backendRaise .illegalCommand x
    else
      match backendGuard x.held with
      | .error e => backendRaise e x
      | .ok o =>
        if o.mac then
          let eq := decide (tagDiff s.tag o.lp.h (backendDigest o).2 = 0) && decide (taglen = o.lp.h)
          { x with rest := complete .ok eq s }
        else backendRaise .notMac x
  | .ctxSave => backendFinish { x with rest := { s with staging := stageContext (logicalLive x.held) } }
  | .ctxLoad =>
    match loadContext s.caps s.staging with
    | .ok c => backendFinish { x with held := holdContext m c }
    | .error e => backendRaise e x
  | .zeroize =>
    if s.params.hasZeroize then
      backendFinish
        { rest :=
            { s with
              din := zeroWords 8, key := zeroWords 16, tag := zeroWords 16, dout := zeroWords 16, staging := Staging.zero }
          held := none }
    else backendRaise .illegalCommand x

end Sys2Proof.Machine
end

