-- ==== Sys2Proof/Machine/Work.lean ====
section
/-!
DEFINITION. The number of ROUND applications of a command (spec/70_reset_and_hazards.md R240): the table, and a core that counts
each ROUND it applies, with the commands performed on it. It is work, not time.
-/

namespace Sys2Proof.Machine

/-- The rounds of a command that completes with OK (R240). -/
def okWork (s : State) : Instr → Nat
  | .nop => 0
  | .init _ => s.param.i.toNat
  | .update len => if 32 ≤ s.live.n.val + len.toNat then s.live.lp.r.toNat else 0
  | .final => s.live.lp.r.toNat + s.live.lp.f.toNat
  | .macInit _ _ => s.param.i.toNat + 2 * s.param.r.toNat
  | .verify _ => s.live.lp.r.toNat + s.live.lp.f.toNat
  | .ctxSave => 0
  | .ctxLoad => 0
  | .zeroize => 0

/-- The rounds of a command: those of R240's table when it completes with OK, none when it raises an error. -/
def work (i : Instr) (s : State) : Nat :=
  match exec i s with
  | .next t => if t.err = .ok then okWork s i else 0
  | .fault _ => 0
  | .refused _ => 0

/-- A core state and how many ROUNDs have been applied on the way to it. -/
structure Metered where
  core : CoreState
  count : Nat
  deriving DecidableEq, Repr

/-- ROUND (spec/41_permutation_core.md R113), counted. The commands below apply ROUND through this alone. -/
def meteredRound (x : Metered) : Metered := { core := cubeRound x.core, count := x.count + 1 }

/-- ROUNDS(n) (R114), each counted. -/
def meteredRounds : Nat → Metered → Metered
  | 0, x => x
  | n + 1, x => meteredRounds n (meteredRound x)

/-- CORE_INIT (R115), counted from 0. -/
def meteredInit (i r : BitVec 8) (h : BitVec 7) : Metered := meteredRounds i.toNat { core := seedState r h, count := 0 }

/-- CORE_ABSORB (R116), counted. -/
def meteredAbsorb (x : Metered) (blk : Block) (r : BitVec 8) : Metered :=
  meteredRounds r.toNat { x with core := xorBlock x.core blk }

/-- CORE_FINAL (R117), counted. -/
def meteredFinal (x : Metered) (f : BitVec 8) : Metered :=
  meteredRounds f.toNat { x with core := x.core.set 31 (x.core[31] ^^^ 1) }

/-- A live context and how many ROUNDs the command has applied so far. -/
structure MeteredLive where
  live : Live
  count : Nat
  deriving DecidableEq, Repr

/-- BUF_APPEND (spec/44_hash_commands.md R151) on the counting core. -/
def meteredAppend (c : MeteredLive) (b : Byte) : MeteredLive :=
  let buf := c.live.buf.set c.live.n.val b
  if h : c.live.n.val + 1 < 32 then { c with live := { c.live with buf := buf, n := ⟨c.live.n.val + 1, h⟩ } }
  else
    let x := meteredAbsorb { core := c.live.s, count := c.count } buf c.live.lp.r
    { live := { c.live with s := x.core, buf := zeroBlock, n := 0 }, count := x.count }

/-- PAD_BLOCK and CORE_FINAL (R152, R156) on the counting core. -/
def meteredFinish (c : Live) : Metered :=
  meteredFinal (meteredAbsorb { core := c.s, count := 0 } (c.buf.set c.n.val 0x80) c.lp.r) c.lp.f

/-- What a command on the counting core ends in, and the ROUNDs it applied. -/
structure Charged where
  rounds : Nat
  outcome : Result

/-- Every command performed on the counting core, from its own rule (R154 to R156, R171, R172, R180 to R183). -/
def meteredExec (i : Instr) (s : State) : Charged :=
  match i with
  | .nop => { rounds := 0, outcome := finish s }
  | .init bk =>
    if legalH s.param.h then
      match selectBackend s bk with
      | some k =>
        let x := meteredInit s.param.i s.param.r s.param.h
        { rounds := x.count, outcome := finish { s with live := startObject s.param x.core false k, dout := zeroWords 16 } }
      | none => { rounds := 0, outcome := raise .unavailableBackend s }
    else { rounds := 0, outcome := raise .invalidParameter s }
  | .update len =>
    if 32 < len.toNat then { rounds := 0, outcome := raise .illegalCommand s }
    else
      match guardAbsorb s.live with
      | some e => { rounds := 0, outcome := raise e s }
      | none =>
        let c := ((bytesOf s.din).take len.toNat).foldl meteredAppend { live := s.live, count := 0 }
        { rounds := c.count, outcome := finish { s with live := c.live } }
  | .final =>
    match guardAbsorb s.live with
    | some e => { rounds := 0, outcome := raise e s }
    | none =>
      let x := meteredFinish s.live
      { rounds := x.count
        outcome := finish
          { s with
            live := { s.live with s := x.core, buf := zeroBlock, n := 0, phase := .done }
            dout := digestWindow (coreOut x.core s.live.lp.h) } }
  | .macInit keylen bk =>
    let cleared := { s with key := zeroWords 16 }
    if legalH s.param.h then
      if keylen.toNat = 64 then
        match selectBackend s bk with
        | some k =>
          let first := meteredAbsorb (meteredInit s.param.i s.param.r s.param.h) (windowBlock s.key 0) s.param.r
          let x := meteredAbsorb first (windowBlock s.key 32) s.param.r
          { rounds := x.count
            outcome := finish { cleared with live := startObject s.param x.core true k, dout := zeroWords 16 } }
        | none => { rounds := 0, outcome := raise .unavailableBackend cleared }
      else { rounds := 0, outcome := raise .invalidKeyLength cleared }
    else { rounds := 0, outcome := raise .invalidParameter cleared }
  | .verify taglen =>
    if 64 < taglen.toNat then { rounds := 0, outcome := raise .illegalCommand s }
    else
      match guardAbsorb s.live with
      | some e => { rounds := 0, outcome := raise e s }
      | none =>
        if s.live.mac then
          let x := meteredFinish s.live
          let eq := decide (tagDiff s.tag s.live.lp.h (coreOut x.core s.live.lp.h) = 0) && decide (taglen = s.live.lp.h)
          { rounds := x.count, outcome := .next (complete .ok eq s) }
        else { rounds := 0, outcome := raise .notMac s }
  | .ctxSave => { rounds := 0, outcome := finish { s with staging := stageContext s.live } }
  | .ctxLoad =>
    match loadContext s.caps s.staging with
    | .ok c => { rounds := 0, outcome := finish { s with live := c } }
    | .error e => { rounds := 0, outcome := raise e s }
  | .zeroize =>
    { rounds := 0
      outcome :=
        if s.params.hasZeroize then
          finish
            { s with
              live := Live.uninit, din := zeroWords 8, key := zeroWords 16, tag := zeroWords 16, dout := zeroWords 16
              staging := Staging.zero }
        else raise .illegalCommand s }

end Sys2Proof.Machine
end

