-- ==== Sys2Proof/Machine/HashFunction.lean ====
section
/-!
DEFINITION. The digest function HASH (spec/44_hash_commands.md R158), written from its own rule: the message as a whole, no
buffer and no commands.
-/

namespace Sys2Proof.Machine

/-- Bytes 32t to 32t+31 of a byte string, zero bytes past its end. -/
def messageBlock (m : List Byte) (t : Nat) : Block := Vector.ofFn fun j => m.getD (32 * t + j.val) 0

/-- CORE_ABSORB of the floor(L/32) whole blocks of a message, in order (R158). -/
def absorbWhole (r : BitVec 8) (st : CoreState) (m : List Byte) : CoreState :=
  (List.range (m.length / 32)).foldl (fun x t => coreAbsorb x (messageBlock m t) r) st

/-- The last block: the rest of the message, 0x80, zero bytes to 32 (R158). -/
def lastBlock (m : List Byte) : Block := messageBlock (m ++ [0x80]) (m.length / 32)

/-- The core state after every block of the message, the last one included (R158). -/
def absorbMessage (r : BitVec 8) (st : CoreState) (m : List Byte) : CoreState :=
  coreAbsorb (absorbWhole r st m) (lastBlock m) r

/-- HASH(I, R, F, H, m) (R158). -/
def hashFunction (p : HashParams) (m : List Byte) : List Byte :=
  coreOut (coreFinal (absorbMessage p.r (coreInit p.i p.r p.h) m) p.f) p.h

end Sys2Proof.Machine
end

