-- ==== Sys2Proof/Safety.lean ====
section
/-!
DEFINITION. The terms claims are stated in: the invariants of the live context, what a failed command may change, the end of a
host program, command sequences, and states that differ only in the backend or only in the key.
-/

namespace Sys2Proof.Machine

/-- Items 1 to 4 of spec/10_state.md R32. Item 5 is about the past of a state, not about the state (log 18). -/
abbrev Live.Inv (caps : Word) (c : Live) : Prop :=
  (∀ j : Fin 32, c.n.val ≤ j.val → c.buf[j] = 0)
  ∧ (c.phase ≠ .absorb → c.n = 0)
  ∧ (c.phase = .uninit → c = Live.uninit)
  ∧ (c.phase ≠ .uninit → c.bk.any (available caps) = true ∧ 1 ≤ c.lp.h.toNat ∧ c.lp.h.toNat ≤ 64)

/-- The invariant of the machine: R32 for the live context, CAPS as reset latched it (R141), and a pending command is one the
host has not polled to its end (spec/70_reset_and_hazards.md R243). -/
abbrev State.Inv (s : State) : Prop :=
  s.live.Inv s.caps ∧ s.caps = capsOf s.params ∧ (s.busy = true → s.unpolled = true)

/-- `t` is `s` but for ERR, ESTICKY, VOK, BUSY and KEY: all that a command may change when it raises an error
(spec/60_exceptions.md R202; KEY by MAC_INIT alone). -/
abbrev SameButFlagsAndKey (s t : State) : Prop :=
  t = { s with err := t.err, esticky := t.esticky, vok := t.vok, pending := t.pending, key := t.key }

/-- The conditions of spec/30_encoding.md R95 under which a command word is illegal, read off its bits. -/
abbrev IllegalWord (hasZeroize : Bool) (cw : Word) : Prop :=
  9 ≤ (opField cw).toNat
  ∨ cw.getLsbD 15 = true
  ∨ (cw >>> 19) ≠ 0
  ∨ ((opField cw).toNat ∉ [2, 4, 5] ∧ argField cw ≠ 0)
  ∨ ((opField cw).toNat ∉ [1, 4] ∧ bkField cw ≠ 0)
  ∨ ((opField cw).toNat ∈ [1, 4] ∧ 6 ≤ (bkField cw).toNat)
  ∨ ((opField cw).toNat = 2 ∧ 32 < (argField cw).toNat)
  ∨ ((opField cw).toNat = 5 ∧ 64 < (argField cw).toNat)
  ∨ ((opField cw).toNat = 8 ∧ hasZeroize = false)

/-- A host program has ended: its last access is made, and a STATUS read after its last CMD write returned BUSY = 0
(spec/70_reset_and_hazards.md R243), so that no command is pending. A program that writes no CMD has nothing to poll. Log 23.
DESIGN CHOICE: `events` is to be empty of every event, so a reset of the platform or an access of a second host that is still to
come delays the end, where R243 speaks of the host's own accesses alone. Log 24. -/
abbrev Ended (s : State) : Prop := s.events = [] ∧ s.unpolled = false ∧ s.pending = none

/-- What R243 counts of a register's value: until the host has polled, nothing of the registers R235 marks, and of STATUS its
bits BUSY and OVR alone. -/
def observedValue (s : State) (r : Reg) : Option Word :=
  if s.unpolled then
    if r = .status then some (regValue s .status &&& 5)
    else if drawnWhileBusy r then none
    else some (regValue s r)
  else some (regValue s r)

/-- The offsets of the registers of spec/20_memory.md R61, reserved ones left out. -/
def registerOffsets : List Nat := ((List.range 256).map (4 * ·)).filter fun off => decide (regAt off ≠ .reserved)

/-- The reads of the host whose values R243 counts, newest first. -/
def observedReads (s : State) : List HostRead := s.returned.filter HostRead.specified

/-- The observable result of a host program (R243): every register value that R235 does not mark unspecified, by offset, and the
values of the host's reads but those made while BUSY = 1 or marked by R235. -/
def observation (s : State) : List (Nat × Word) × List HostRead :=
  (registerOffsets.filterMap fun off => (observedValue s (regAt off)).map fun v => (off, v), observedReads s)

/-- DIN as LOADDIN leaves it for at most 32 bytes (spec/30_encoding.md R100). -/
def State.withDin (s : State) (b : List Byte) : State := { s with din := packBytes 8 fun j => b.getD j 0 }

/-- KEY as LOADKEY leaves it for 64 bytes (R100). -/
def State.withKey (s : State) (k : List Byte) : State := { s with key := packBytes 16 fun j => k.getD j 0 }

/-- The pieces of a message, each loaded into DIN and absorbed by one UPDATE (HASHMSG of R100, for any cut). -/
def feedPieces : List (List Byte) → State → Result
  | [], s => .next s
  | c :: cs, s =>
    match exec (.update (BitVec.ofNat 7 c.length)) (s.withDin c) with
    | .next t => feedPieces cs t
    | .fault f => .fault f
    | .refused r => .refused r

/-- A start command, the pieces of a message, then FINAL (R158, spec/45_mac_commands.md R174). -/
def digestRun (start : Instr) (pieces : List (List Byte)) (s : State) : Result :=
  match exec start s with
  | .next t =>
    match feedPieces pieces t with
    | .next u => exec .final u
    | .fault f => .fault f
    | .refused r => .refused r
  | .fault f => .fault f
  | .refused r => .refused r

/-- Two live contexts that differ at most in which available backend is active (spec/42_backends.md R137). -/
abbrev BackendTwins (caps : Word) (c d : Live) : Prop :=
  { c with bk := none } = { d with bk := none }
  ∧ (c.bk = d.bk ∨ (c.bk.any (available caps) = true ∧ d.bk.any (available caps) = true))

/-- Two staging contexts that differ at most in CM.BK, where both name available backends (R137). -/
abbrev StagingTwins (caps : Word) (g h : Staging) : Prop :=
  g.cs = h.cs ∧ g.cb = h.cb ∧ g.cp = h.cp
  ∧ (g.cm = h.cm
    ∨ (g.cm &&& ~~~(0x700 : Word) = h.cm &&& ~~~(0x700 : Word)
      ∧ (backendOfId (cmBk g.cm)).any (available caps) = true
      ∧ (backendOfId (cmBk h.cm)).any (available caps) = true))

/-- Two states that agree in everything but PREF, STATUS.BK and CM.BK, where the backends named are available (R137, R145). -/
abbrev StateTwins (s t : State) : Prop :=
  { s with params := { s.params with prefFront := t.params.prefFront }, live := t.live, staging := t.staging } = t
  ∧ available s.caps .soft = true
  ∧ BackendTwins s.caps s.live t.live ∧ StagingTwins s.caps s.staging t.staging

/-- Two commands that are the same, or INIT or MAC_INIT each with a selector that chooses a backend (R137). -/
abbrev CommandTwins (s t : State) (i j : Instr) : Prop :=
  i = j
  ∨ (∃ a b, i = .init a ∧ j = .init b ∧ (selectBackend s a).isSome = true ∧ (selectBackend t b).isSome = true)
  ∨ (∃ k a b, i = .macInit k a ∧ j = .macInit k b
      ∧ (selectBackend s a).isSome = true ∧ (selectBackend t b).isSome = true)

/-- Two outcomes are next states in a relation, or the same stop. -/
def OutcomeRel (rel : State → State → Prop) : Result → Result → Prop
  | .next s, .next t => rel s t
  | .fault f, .fault g => f = g
  | .refused r, .refused q => r = q
  | _, _ => False

/-- The registers of the window other than STATUS and ERR that a command group may write do not change: every register not
in `written` reads as before (STATUS and ERR always may change, spec/60_exceptions.md R201). -/
abbrev WindowUnchangedBut (written : Reg → Bool) (s t : State) : Prop :=
  ∀ r : Reg, r ≠ .status → r ≠ .err → written r = false → regValue t r = regValue s r

/-- Two states that agree in everything but KEY (spec/10_state.md R40). -/
abbrev SameButKey (s t : State) : Prop := { s with key := t.key } = t

end Sys2Proof.Machine
end

