-- ==== Sys2Proof/Certificates/Slice0/Obligations.lean ====
section
/-!
DEFINITION. The statements for the provers, each from the spec's numbered rules. Every one that is about a state holds for all
parameters of R10, since State carries them.
-/

open Sys2Proof Sys2Proof.Machine

/-! ## Encoding -/

/-- Decoding the command word of a legal command gives it back (spec/30_encoding.md R93, R94, R97, R99). -/
def Obligations.DecodeOfEncodeIsIdentity : Prop :=
  ∀ (hasZeroize : Bool) (i : Instr), i.wellFormed hasZeroize = true → decode hasZeroize (encode i) = .ok i

/-- A word that decodes is the command word of the command it decodes to, and that command is legal: no bit of a word is
ignored (R93, R95, R97). -/
def Obligations.EncodeOfDecodeIsIdentity : Prop :=
  ∀ (hasZeroize : Bool) (cw : Word) (i : Instr),
    decode hasZeroize cw = .ok i → encode i = cw ∧ i.wellFormed hasZeroize = true

/-- Words written out from R99 and from vectors V-D1 to V-D16 (spec/95_test_vectors.md). -/
def Obligations.KnownWordsDecode : Prop :=
  decode true 0x00000000 = .ok .nop
  ∧ decode true 0x00010001 = .ok (.init (.named .soft))
  ∧ decode true 0x00050001 = .ok (.init (.named .neon))
  ∧ decode true 0x00002002 = .ok (.update 32)
  ∧ decode true 0x00000003 = .ok .final
  ∧ decode true 0x00004004 = .ok (.macInit 64 .auto)
  ∧ decode true 0x00047F04 = .ok (.macInit 127 (.named .avx512))
  ∧ decode true 0x00001005 = .ok (.verify 16)
  ∧ decode true 0x00000006 = .ok .ctxSave
  ∧ decode true 0x00000007 = .ok .ctxLoad
  ∧ decode true 0x00000008 = .ok .zeroize
  ∧ decode false 0x00000008 = .error .zeroizeAbsent
  ∧ decode true 0x00060001 = .error .backendOutOfRange
  ∧ decode true 0x00002102 = .error .lenOutOfRange
  ∧ decode true 0x00008002 = .error .reservedField
  ∧ decode true 0x00000106 = .error .reservedField
  ∧ decode true 0x000000FF = .error .reservedOpcode

/-- At most one row of the opcode table selects a word (R97). -/
def Obligations.AtMostOneRowSelects : Prop :=
  ∀ (cw : Word) (r q : OpcodeRow),
    r ∈ opcodeRows → q ∈ opcodeRows → r.selects cw = true → q.selects cw = true → r = q

/-- The words the decoder refuses are exactly those R95 calls illegal, read off their bits. -/
def Obligations.IllegalWordsAreExactlyThoseListed : Prop :=
  ∀ (hasZeroize : Bool) (cw : Word), (∃ e, decode hasZeroize cw = .error e) ↔ IllegalWord hasZeroize cw

/-- An illegal word completes with ILLEGAL_COMMAND and changes nothing else: not KEY, not OVR, not the context (R95, R202). -/
def Obligations.IllegalWordChangesOnlyFlags : Prop :=
  ∀ (s : State) (p : Pending),
    s.pending = some p → (p.wait = 0 ∨ s.events = []) → IllegalWord s.params.hasZeroize p.cw →
    step s = .next { s with err := .illegalCommand, esticky := true, vok := false, pending := none }

/-! ## The step -/

/-- The engine's step performs the pending command: when its word decodes to a command and the engine is to move, `step` is
`exec` of that command at the same state, with nothing around it (spec/20_memory.md R70; spec/00_scope.md R8; when the engine is
to move is the model's choice, log 4). -/
def Obligations.StepRunsDecodedCommand : Prop :=
  ∀ (s : State) (p : Pending) (i : Instr),
    s.pending = some p → (p.wait = 0 ∨ s.events = []) → decode s.params.hasZeroize p.cw = .ok i → step s = exec i s

/-- Every command word, legal or not, completes: the engine's step is a next state with BUSY = 0 and nothing of the outside
used up (spec/60_exceptions.md R206; R70). -/
def Obligations.EngineStepAlwaysCompletes : Prop :=
  ∀ (s : State) (p : Pending),
    s.pending = some p → (p.wait = 0 ∨ s.events = []) →
    ∃ t, step s = .next t ∧ t.pending = none ∧ t.events = s.events ∧ t.returned = s.returned
      ∧ t.unpolled = s.unpolled ∧ t.draws = s.draws

/-- POLL ends: from any state with a command pending and a host that polls, whatever the free latency (log 4) was, within
`wait + 2` steps the command has completed and the poll has been left; of all the polls' reads R243 counts the last alone, which
returned STATUS with BUSY = 0 (log 23), and with no event left, a reset of the platform included (log 24), the program has ended
(spec/30_encoding.md R100, R206, R218; spec/70_reset_and_hazards.md R243). -/
def Obligations.PollingEnds : Prop :=
  ∀ (s : State) (p : Pending) (rest : List Event),
    s.pending = some p → s.events = .poll :: rest →
    ∃ (k : Nat) (t : State), k ≤ p.wait + 2 ∧ core.run k s = .next t ∧ t.pending = none ∧ t.events = rest
      ∧ t.unpolled = false ∧ (rest = [] → Ended t)
      ∧ observedReads t = { off := 0x008, value := regValue t .status, specified := true } :: observedReads s

/-- COMPLETE(code, eq) ends every command word, legal or not: ERR reads the number of the code, ESTICKY is set on an error and
never cleared, VOK is 1 only after a VERIFY that completes OK with a match, BUSY is 0 (spec/60_exceptions.md R201; the numbers
are R200's). -/
def Obligations.EveryCommandCompletesWithCode : Prop :=
  ∀ (cw : Word) (s : State),
    ∃ t, engineStep cw s = .next t
      ∧ regValue t .err =
          (match t.err with
          | .ok => 0 | .illegalCommand => 1 | .invalidParameter => 2 | .unavailableBackend => 3 | .invalidKeyLength => 4
          | .useAfterFinalize => 5 | .notInitialized => 6 | .notMac => 7 | .badContext => 8)
      ∧ t.esticky = (s.esticky || decide (t.err ≠ .ok))
      ∧ t.busy = false
      ∧ (t.vok = true ↔
          ∃ taglen, decode s.params.hasZeroize cw = .ok (.verify taglen) ∧ t.err = .ok
            ∧ tagDiff s.tag s.live.lp.h (digestOf s.live) = 0 ∧ taglen = s.live.lp.h)

/-- A command that raises an error changes only ERR, ESTICKY, VOK and BUSY; MAC_INIT alone also clears KEY, whatever its code,
and an illegal word never does (spec/60_exceptions.md R202). -/
def Obligations.ErrorsArePrecise : Prop :=
  ∀ (cw : Word) (s t : State),
    engineStep cw s = .next t →
    (t.err ≠ .ok → SameButFlagsAndKey s t)
    ∧ ((∃ keylen bk, decode s.params.hasZeroize cw = .ok (.macInit keylen bk)) → t.key = zeroWords 16)
    ∧ ((∀ keylen bk, decode s.params.hasZeroize cw ≠ .ok (.macInit keylen bk)) → t.err ≠ .ok → t.key = s.key)

/-! ## Reset -/

/-- After reset every piece of state holds the value of R52's table, for every value of the parameters. -/
def Obligations.ResetLeavesTheTable : Prop :=
  ∀ p : Config.Params,
    let s := State.resetWith p
    (∀ i : Fin 32, s.live.s[i] = 0) ∧ (∀ j : Fin 32, s.live.buf[j] = 0) ∧ s.live.n = 0
    ∧ s.live.phase = .uninit ∧ s.live.mac = false ∧ s.live.bk = none
    ∧ s.live.lp.i = 0 ∧ s.live.lp.r = 0 ∧ s.live.lp.f = 0 ∧ s.live.lp.h = 0
    ∧ regValue s .id = 0x43554248 ∧ s.caps = capsOf p ∧ regValue s .status = 0 ∧ regValue s .err = 0
    ∧ regValue s .param = 0x40201010 ∧ s.pending = none
    ∧ (∀ k : Fin 8, s.din[k] = 0) ∧ (∀ k : Fin 16, s.key[k] = 0) ∧ (∀ k : Fin 16, s.tag[k] = 0)
    ∧ (∀ k : Fin 16, s.dout[k] = 0) ∧ (∀ k : Fin 32, s.staging.cs[k] = 0) ∧ (∀ k : Fin 8, s.staging.cb[k] = 0)
    ∧ s.staging.cm = 0 ∧ s.staging.cp = 0

/-- A reset abandons a pending command: after it the engine is in the reset state and nothing of the command survives
(spec/70_reset_and_hazards.md R231; reset is one event of the model, log 11). -/
def Obligations.ResetAbandonsPendingCommand : Prop :=
  ∀ (s : State) (rest : List Event),
    s.events = .reset :: rest → (∀ p, s.pending = some p → p.wait ≠ 0) →
    step s = .next
      { State.resetWith s.params with
        events := rest, returned := s.returned, unpolled := s.unpolled, draws := s.draws }

/-- The reset state meets the invariant, for every value of the parameters (spec/10_state.md R32, R52). -/
def Obligations.ResetMeetsInvariant : Prop :=
  (∀ p : Config.Params, (State.resetWith p).Inv) ∧ State.reset.Inv

/-- Every step, the host's or the engine's, keeps items 1 to 4 of R32 and the latched CAPS, and a pending command stays one that
the host has still to poll (spec/10_state.md R32; spec/43_dispatcher.md R141; spec/70_reset_and_hazards.md R243, the model's
field `unpolled`, log 23). -/
def Obligations.StepKeepsInvariant : Prop :=
  ∀ s t : State, s.Inv → step s = .next t → t.Inv

/-- No step changes the parameters, and only a reset writes CAPS, with the value of R34 (spec/43_dispatcher.md R141). -/
def Obligations.CapsChangesOnlyAtReset : Prop :=
  ∀ s t : State,
    step s = .next t →
    t.params = s.params ∧ (t.caps = s.caps ∨ (∃ rest, s.events = .reset :: rest) ∧ t.caps = capsOf s.params)

/-! ## The registers of the window -/

/-- The fields of CAPS (spec/10_state.md R34). -/
def Obligations.CapsFields : Prop :=
  ∀ p : Config.Params,
    (capsOf p).getLsbD 0 = true
    ∧ ((capsOf p).getLsbD 1 = true ↔ p.arch = .x86_64 ∧ p.feat.getLsbD 1 = true)
    ∧ ((capsOf p).getLsbD 2 = true ↔ p.arch = .x86_64 ∧ p.feat.getLsbD 2 = true)
    ∧ ((capsOf p).getLsbD 3 = true ↔ p.arch = .x86_64 ∧ p.feat.getLsbD 3 = true)
    ∧ ((capsOf p).getLsbD 4 = true ↔ p.arch = .aarch64 ∧ p.feat.getLsbD 4 = true)
    ∧ (capsOf p).getLsbD 8 = p.hasZeroize
    ∧ (∀ k, 5 ≤ k → k ≠ 8 → (capsOf p).getLsbD k = false)

/-- The fields of STATUS (spec/10_state.md R35). -/
def Obligations.StatusFields : Prop :=
  ∀ s : State,
    let w := regValue s .status
    w.getLsbD 0 = s.pending.isSome ∧ w.getLsbD 1 = s.esticky ∧ w.getLsbD 2 = s.ovr ∧ w.getLsbD 3 = s.vok
    ∧ w.extractLsb' 4 2 = (match s.live.phase with | .uninit => 0 | .absorb => 1 | .done => 2)
    ∧ w.getLsbD 6 = s.live.mac ∧ w.getLsbD 7 = false
    ∧ w.extractLsb' 8 3 =
        (match s.live.bk with
        | none => 0 | some .soft => 1 | some .sse2 => 2 | some .avx2 => 3 | some .avx512 => 4 | some .neon => 5)
    ∧ w.extractLsb' 11 5 = 0 ∧ (w.extractLsb' 16 5).toNat = s.live.n.val ∧ w.extractLsb' 21 11 = 0

/-- Every register is reached at the offset R61 gives it, at no other, and every aligned offset below 0x400 is its register's or
one of the reserved ranges (spec/20_memory.md R61). -/
def Obligations.RegisterMapIsOneToOne : Prop :=
  (∀ r : Reg, regAt (regOffset r) = r)
  ∧ (∀ off : Nat, off < 0x400 → off % 4 = 0 → regAt off ≠ .reserved → regOffset (regAt off) = off)
  ∧ regAt 0x000 = .id ∧ regAt 0x004 = .caps ∧ regAt 0x008 = .status ∧ regAt 0x00C = .err ∧ regAt 0x010 = .param
  ∧ regAt 0x014 = .cmd
  ∧ (∀ k : Fin 8, regAt (0x040 + 4 * k.val) = .din k) ∧ (∀ k : Fin 16, regAt (0x080 + 4 * k.val) = .key k)
  ∧ (∀ k : Fin 16, regAt (0x0C0 + 4 * k.val) = .tag k) ∧ (∀ k : Fin 16, regAt (0x100 + 4 * k.val) = .dout k)
  ∧ (∀ k : Fin 32, regAt (0x200 + 4 * k.val) = .cs k) ∧ (∀ k : Fin 8, regAt (0x280 + 4 * k.val) = .cb k)
  ∧ regAt 0x2A0 = .cm ∧ regAt 0x2A4 = .cp
  ∧ (∀ off : Nat, off < 0x400 → off % 4 = 0 →
      (regAt off = .reserved ↔
        (0x018 ≤ off ∧ off ≤ 0x03C) ∨ (0x060 ≤ off ∧ off ≤ 0x07C) ∨ (0x140 ≤ off ∧ off ≤ 0x1FC) ∨ 0x2A8 ≤ off))

/-- A reserved offset reads 0, whether or not a command is pending; a write to it is ignored and sets no flag (R62; that it
reads 0 while a command is pending is the model's reading of R73, log 6). -/
def Obligations.ReservedOffsetsReadZero : Prop :=
  ∀ (s : State) (off : Nat) (v : Word),
    off % 4 = 0 →
    ((0x018 ≤ off ∧ off ≤ 0x03C) ∨ (0x060 ≤ off ∧ off ≤ 0x07C) ∨ (0x140 ≤ off ∧ off ≤ 0x1FC)
      ∨ (0x2A8 ≤ off ∧ off ≤ 0x3FC)) →
    readValue s (regAt off) = 0 ∧ hostWrite off v s = s

/-- A host read while no command is pending returns the register's value, spelt out here but for STATUS, which StatusFields has,
and changes nothing of the engine (R66, R69; spec/10_state.md R33 to R46; the numbers of ERR are R200's). Its value counts for R243
but where R235 marks it, and a STATUS read ends the wait of R235 (log 23). -/
def Obligations.IdleReadReturnsRegister : Prop :=
  ∀ (s : State) (off : Nat) (rest : List Event),
    s.pending = none → off < 0x400 → off % 4 = 0 → s.events = .read (s.params.base + off) 4 :: rest →
    step s = .next
      { s with
        events := rest
        returned :=
          { off := off, value := regValue s (regAt off), specified := !(s.unpolled && drawnWhileBusy (regAt off)) } :: s.returned
        unpolled := s.unpolled && decide (off ≠ 0x008) }
    ∧ (match regAt off with
      | .id => regValue s .id = 0x43554248
      | .caps => regValue s .caps = s.caps
      | .status => regValue s .status = statusWord s
      | .err =>
        regValue s .err =
          (match s.err with
          | .ok => 0 | .illegalCommand => 1 | .invalidParameter => 2 | .unavailableBackend => 3 | .invalidKeyLength => 4
          | .useAfterFinalize => 5 | .notInitialized => 6 | .notMac => 7 | .badContext => 8)
      | .param =>
        let w := regValue s .param
        w.extractLsb' 0 8 = s.param.i ∧ w.extractLsb' 8 8 = s.param.r ∧ w.extractLsb' 16 8 = s.param.f
          ∧ w.extractLsb' 24 7 = s.param.h ∧ w.getLsbD 31 = false
      | .din k => regValue s (.din k) = s.din[k]
      | .tag k => regValue s (.tag k) = s.tag[k]
      | .dout k => regValue s (.dout k) = s.dout[k]
      | .cs k => regValue s (.cs k) = s.staging.cs[k]
      | .cb k => regValue s (.cb k) = s.staging.cb[k]
      | .cm => regValue s .cm = s.staging.cm
      | .cp => regValue s .cp = s.staging.cp
      | .cmd => regValue s .cmd = 0
      | .key k => regValue s (.key k) = 0
      | .reserved => regValue s .reserved = 0)

/-- While a command is pending, ID, CAPS, PARAM, STATUS.BUSY and STATUS.OVR read their exact values; ERR, DIN, TAG, DOUT, CS, CB,
CM, CP and the other STATUS bits read a draw, the free value of this read (R73; log 5), whatever the registers hold; KEY, CMD and
the reserved offsets read 0 (the model's reading of R73, log 6). A read changes nothing of the engine (R69), and its value is not
one that R243 counts (log 23). -/
def Obligations.BusyReadsExactRegisters : Prop :=
  ∀ (s : State) (p : Pending) (off : Nat) (rest : List Event),
    s.pending = some p → p.wait ≠ 0 → off < 0x400 → off % 4 = 0 → s.events = .read (s.params.base + off) 4 :: rest →
    ∃ v, step s = .next
        { s with
          events := rest, returned := { off := off, value := v, specified := false } :: s.returned, draws := s.draws + 1
          pending := some { p with wait := p.wait - 1 } }
      ∧ (match regAt off with
        | .id => v = 0x43554248
        | .caps => v = s.caps
        | .param => v = regValue s .param
        | .status =>
          v.getLsbD 0 = true ∧ v.getLsbD 2 = s.ovr
            ∧ ∀ k, k ≠ 0 → k ≠ 2 → v.getLsbD k = (Config.freeRead s.draws).getLsbD k
        | .err | .din _ | .tag _ | .dout _ | .cs _ | .cb _ | .cm | .cp => v = Config.freeRead s.draws
        | .key _ | .cmd | .reserved => v = 0)

/-- A write while no command is pending stores its value in the register and nowhere else: a read-write register reads back what
was written (PARAM without bit 31, its fields those of R36), KEY holds it, a read-only register keeps its value, and every other
register reads as before (R36, R66, R67). -/
def Obligations.IdleWriteReadsBack : Prop :=
  ∀ (s : State) (r : Reg) (v : Word) (rest : List Event),
    s.pending = none → s.events = .write (s.params.base + regOffset r) 4 v :: rest →
    ∃ t, step s = .next t
      ∧ (match r with
        | .din k => t = { s with events := rest, din := s.din.set k v } ∧ regValue t r = v
        | .tag k => t = { s with events := rest, tag := s.tag.set k v } ∧ regValue t r = v
        | .cs k =>
          t = { s with events := rest, staging := { s.staging with cs := s.staging.cs.set k v } } ∧ regValue t r = v
        | .cb k =>
          t = { s with events := rest, staging := { s.staging with cb := s.staging.cb.set k v } } ∧ regValue t r = v
        | .cm => t = { s with events := rest, staging := { s.staging with cm := v } } ∧ regValue t r = v
        | .cp => t = { s with events := rest, staging := { s.staging with cp := v } } ∧ regValue t r = v
        | .param =>
          t = { s with
                events := rest
                param := { i := v.extractLsb' 0 8, r := v.extractLsb' 8 8, f := v.extractLsb' 16 8,
                           h := v.extractLsb' 24 7 } }
          ∧ regValue t r = v &&& 0x7FFFFFFF
        | .key k => t = { s with events := rest, key := s.key.set k v } ∧ regValue t r = 0
        | .id | .caps | .err | .dout _ | .reserved => t = { s with events := rest }
        | .cmd => t.pending.map Pending.cw = some v ∧ regValue t r = 0
        | .status =>
          t = { s with events := rest, esticky := s.esticky && !v.getLsbD 1, ovr := s.ovr && !v.getLsbD 2 })
      ∧ (∀ q : Reg, q ≠ r → (r = .cmd → q ≠ .status) → regValue t q = regValue s q)
      ∧ t.live = s.live ∧ t.params = s.params ∧ ((∀ k, r ≠ .key k) → t.key = s.key)
      ∧ t.events = rest ∧ t.returned = s.returned

/-- A write while a command is pending: to an operand register or CMD it is dropped and sets OVR, to STATUS it is performed,
to a read-only register or a reserved offset it is ignored (R71). The host is one access nearer to the engine's step (log 4), and a
dropped CMD write counts as the last CMD write of R243 (log 23). -/
def Obligations.BusyWritesAreDropped : Prop :=
  ∀ (s : State) (p : Pending) (r : Reg) (v : Word) (rest : List Event),
    s.pending = some p → p.wait ≠ 0 → s.events = .write (s.params.base + regOffset r) 4 v :: rest →
    let after := { s with events := rest, pending := some { p with wait := p.wait - 1 } }
    step s = .next
      (match r with
      | .param | .din _ | .key _ | .tag _ | .cs _ | .cb _ | .cm | .cp => { after with ovr := true }
      | .cmd => { after with ovr := true, unpolled := true }
      | .status => { after with esticky := s.esticky && !v.getLsbD 1, ovr := s.ovr && !v.getLsbD 2 }
      | .id | .caps | .err | .dout _ | .reserved => after)

/-- While a command is pending, no access of the host changes what the command reads or the command itself: PARAM, DIN, KEY, TAG
and the staging context are at its completion as they were at its acceptance (R72). -/
def Obligations.OperandsConstantWhilePending : Prop :=
  ∀ (s t : State) (p : Pending),
    s.pending = some p → hostStep s = .next t → (∀ rest, s.events ≠ .reset :: rest) →
    t.param = s.param ∧ t.din = s.din ∧ t.key = s.key ∧ t.tag = s.tag ∧ t.staging = s.staging ∧ t.live = s.live
    ∧ t.pending.map Pending.cw = some p.cw

/-- A write of a word to CMD while no command is pending makes it the pending command and sets BUSY; nothing else of the engine
changes (R70). How many host accesses may come before the engine's step is the free value of this acceptance, `Config.latency`
of the draw counter (log 4), and the host has now to poll (log 23). -/
def Obligations.CommandWriteIsAccepted : Prop :=
  ∀ (s : State) (v : Word) (rest : List Event),
    s.pending = none → s.events = .write (s.params.base + 0x014) 4 v :: rest →
    step s = .next
      { s with
        events := rest, pending := some { cw := v, wait := Config.latency s.draws }, unpolled := true
        draws := s.draws + 1 }

/-- An access inside the window that is not 32 bits wide or not aligned to 4 faults (R68, R205; log 8), and so does an access
outside the window (the model's choice, log 9). -/
def Obligations.BadAccessesFault : Prop :=
  ∀ (s : State) (e : Event) (addr bytes : Nat) (v : Word) (rest : List Event),
    (∀ p, s.pending = some p → p.wait ≠ 0) → s.events = e :: rest → (e = .read addr bytes ∨ e = .write addr bytes v) →
    (s.params.base ≤ addr → addr < s.params.base + 0x400 → (bytes ≠ 4 ∨ addr % 4 ≠ 0) → step s = .fault .busError)
    ∧ (addr < s.params.base ∨ s.params.base + 0x400 ≤ addr → step s = .fault .outsideWindow)

/-- An access of a second host is refused (R82; that it comes as an event is the model's choice, log 10). -/
def Obligations.SecondHostIsRefused : Prop :=
  ∀ (s : State) (rest : List Event),
    s.events = .otherHost :: rest → (∀ p, s.pending = some p → p.wait ≠ 0) → step s = .refused .severalHosts

/-- No access of the host writes the live context, DOUT, ERR, VOK or CAPS: whatever the access, a step of the host other than a
reset leaves them alone (spec/10_state.md R43; R67). -/
def Obligations.HostNeverTouchesContext : Prop :=
  ∀ s t : State,
    hostStep s = .next t → (∀ rest, s.events ≠ .reset :: rest) →
    t.live = s.live ∧ t.dout = s.dout ∧ t.err = s.err ∧ t.vok = s.vok ∧ t.caps = s.caps ∧ t.params = s.params

/-- KEY cannot be read back: two states that differ in KEY alone take steps to states that differ in KEY alone, the values the
host has read included (spec/10_state.md R40). Both runs draw the same free values: the reads while BUSY = 1 (log 5) and the
latency of a command (log 4) are the same functions of the same counter. The engine's step that performs a MAC_INIT is left out,
one that raises an error too: MacInitErrors says what that one does. The host's steps while a MAC_INIT is pending are not. -/
def Obligations.KeyCannotBeReadBack : Prop :=
  ∀ s t : State,
    SameButKey s t →
    (∀ p keylen bk, s.pending = some p → (p.wait = 0 ∨ s.events = []) →
      decode s.params.hasZeroize p.cw ≠ .ok (.macInit keylen bk)) →
    OutcomeRel SameButKey (step s) (step t)

/-! ## The permutation core -/

/-- The words SUBROUND leaves, from the words it finds (spec/41_permutation_core.md R112). -/
def Obligations.SubroundWords : Prop :=
  ∀ (r : Nat) (m1 m2 i : Fin 16) (s : CoreState),
    (subround r m1 m2 s)[i.val] = rotl32 s[(i ^^^ m1).val] r ^^^ (s[16 + i.val] + s[i.val])
    ∧ (subround r m1 m2 s)[16 + i.val] = s[16 + (i ^^^ m2).val] + s[(i ^^^ m2).val]

/-- ROUND is a bijection on the states, and the all-zero state is a fixed point of it (R113). -/
def Obligations.RoundIsBijective : Prop :=
  Function.Bijective cubeRound ∧ cubeRound (zeroWords 32) = zeroWords 32

/-- ROUNDS(n) applies ROUND n times, none for n = 0; S[0] of ROUNDS(2) on S[i] = i is 0x05feb59d (R114). -/
def Obligations.RoundsRepeatRound : Prop :=
  (∀ (n : Nat) (s : CoreState), rounds n s = cubeRound^[n] s)
  ∧ (∀ s : CoreState, rounds 0 s = s)
  ∧ (rounds 2 (Vector.ofFn fun i : Fin 32 => BitVec.ofNat 32 i.val))[0] = 0x05feb59d

/-- OUT has H bytes, byte j is byte j mod 4 of S[j div 4], and for H at most 64 only S[0..15] matter; OUT of (0x84, 0x20, 0, ...)
for H = 4 is 84 00 00 00 (R118). -/
def Obligations.OutputBytes : Prop :=
  (∀ (s : CoreState) (h : BitVec 7),
    (coreOut s h).length = h.toNat
    ∧ (∀ (j : Nat) (hj : j < h.toNat), (coreOut s h)[j]? = some ((s[j / 4]'(by omega)).extractLsb' (8 * (j % 4)) 8))
    ∧ (∀ t : CoreState, h.toNat ≤ 64 → halfA s = halfA t → coreOut s h = coreOut t h))
  ∧ coreOut (((zeroWords 32).set 0 0x84).set 1 0x20) 4 = [0x84, 0, 0, 0]

/-- The machine whose live context lies in the layout of the active backend, and which reaches the core through that backend's
`init`, `absorb_block` and `finalize` alone, performs every command as the model does: whatever the five layouts and operations
that meet the contract of `BackendModule`, what it ends in, in logical order, is what `exec` gives (spec/42_backends.md R131 to
R133). The contract is R132's and one thing more: R132's `final_k` gives OUT alone, and that `finalize` also leaves the state
CORE_FINAL leaves, which FINAL keeps (R156), is DEDUCED in log 12, as is that the UNINIT context lies in no layout. -/
def Obligations.BackendRunEqualsCore : Prop :=
  ∀ (m : BackendModules) (i : Instr) (x : BackendState m), exec i x.logical = .next (backendExec m i x).logical

/-! ## The hash commands -/

/-- INIT completes with the object R154 describes, for every selector that chooses a backend; CORE_INIT is I ROUNDs on the state
(H, 32, R, 0, ..., 0) (spec/41_permutation_core.md R115). -/
def Obligations.InitResult : Prop :=
  ∀ (s : State) (bk : Selector) (k : Backend),
    1 ≤ s.param.h.toNat → s.param.h.toNat ≤ 64 → selectBackend s bk = some k →
    exec (.init bk) s = .next
      { s with
        live := { s := coreInit s.param.i s.param.r s.param.h, buf := zeroBlock, n := 0, phase := .absorb,
                  mac := false, bk := some k, lp := s.param }
        dout := zeroWords 16, err := .ok, vok := false, pending := none }
    ∧ coreInit s.param.i s.param.r s.param.h =
        cubeRound^[s.param.i.toNat] (Vector.ofFn fun j : Fin 32 =>
          if j = 0 then s.param.h.setWidth 32 else if j = 1 then 32 else if j = 2 then s.param.r.setWidth 32 else 0)

/-- The errors of INIT, INVALID_PARAMETER before UNAVAILABLE_BACKEND (R154; spec/60_exceptions.md R203). -/
def Obligations.InitErrors : Prop :=
  ∀ (s : State) (bk : Selector),
    (s.param.h.toNat = 0 ∨ 64 < s.param.h.toNat →
      exec (.init bk) s = .next { s with err := .invalidParameter, esticky := true, vok := false, pending := none })
    ∧ (1 ≤ s.param.h.toNat → s.param.h.toNat ≤ 64 → selectBackend s bk = none →
      exec (.init bk) s = .next { s with err := .unavailableBackend, esticky := true, vok := false, pending := none })

/-- Explicit selection: with CAPS bit k-1 = 0 INIT and MAC_INIT raise UNAVAILABLE_BACKEND and nothing else changes (but KEY, by
MAC_INIT); with it 1 the named backend, and no other, is active (spec/43_dispatcher.md R142). -/
def Obligations.ExplicitSelection : Prop :=
  ∀ (s : State) (b : Backend),
    1 ≤ s.param.h.toNat → s.param.h.toNat ≤ 64 →
    (s.caps.getLsbD (backendId b - 1) = false →
      exec (.init (.named b)) s
        = .next { s with err := .unavailableBackend, esticky := true, vok := false, pending := none }
      ∧ exec (.macInit 64 (.named b)) s
        = .next { s with key := zeroWords 16, err := .unavailableBackend, esticky := true, vok := false, pending := none })
    ∧ (s.caps.getLsbD (backendId b - 1) = true →
      (∃ t, exec (.init (.named b)) s = .next t ∧ t.err = .ok ∧ t.live.bk = some b)
      ∧ (∃ t, exec (.macInit 64 (.named b)) s = .next t ∧ t.err = .ok ∧ t.live.bk = some b))

/-- Automatic selection: the active backend is the first of PREF whose CAPS bit is 1, and where Soft's bit is 1 there always is
one, so it never fails (spec/43_dispatcher.md R143). -/
def Obligations.AutomaticSelection : Prop :=
  ∀ s : State,
    1 ≤ s.param.h.toNat → s.param.h.toNat ≤ 64 → s.caps.getLsbD 0 = true →
    ∃ (before after : List Backend) (k : Backend),
      s.params.pref = before ++ k :: after
      ∧ (∀ b ∈ before, s.caps.getLsbD (backendId b - 1) = false) ∧ s.caps.getLsbD (backendId k - 1) = true
      ∧ (∃ t, exec (.init .auto) s = .next t ∧ t.err = .ok ∧ t.live.bk = some k)
      ∧ (∃ t, exec (.macInit 64 .auto) s = .next t ∧ t.err = .ok ∧ t.live.bk = some k)

/-- UPDATE in ABSORB: the first LEN bytes of DIN follow the N held bytes. Below 32 in all they are held and S is unchanged; else
exactly one block is absorbed and the rest is held. Nothing else changes (spec/44_hash_commands.md R151, R155). CORE_ABSORB xors
byte 4k + b of the block into byte b of word k, least significant first, for k below 8, then applies R ROUNDs
(spec/41_permutation_core.md R116; spec/20_memory.md R64). -/
def Obligations.UpdateResult : Prop :=
  ∀ (s : State) (len : BitVec 7),
    s.live.phase = .absorb → len.toNat ≤ 32 → (∀ j : Fin 32, s.live.n.val ≤ j.val → s.live.buf[j] = 0) →
    ∃ c : Live,
      exec (.update len) s = .next { s with live := c, err := .ok, vok := false, pending := none }
      ∧ c.phase = .absorb ∧ c.mac = s.live.mac ∧ c.bk = s.live.bk ∧ c.lp = s.live.lp
      ∧ (s.live.n.val + len.toNat < 32 →
          c.n.val = s.live.n.val + len.toNat ∧ c.s = s.live.s
          ∧ ∀ j : Fin 32, c.buf[j] =
              if j.val < s.live.n.val then s.live.buf[j]
              else if j.val < s.live.n.val + len.toNat then winByte s.din (j.val - s.live.n.val) else 0)
      ∧ (32 ≤ s.live.n.val + len.toNat →
          c.n.val = s.live.n.val + len.toNat - 32
          ∧ (let blk : Block := Vector.ofFn fun j =>
              if j.val < s.live.n.val then s.live.buf[j] else winByte s.din (j.val - s.live.n.val)
            c.s = coreAbsorb s.live.s blk s.live.lp.r
            ∧ ∃ x : CoreState, c.s = cubeRound^[s.live.lp.r.toNat] x
              ∧ (∀ (k : Fin 8) (b : Fin 4),
                  x[k.val].extractLsb' (8 * b.val) 8
                    = s.live.s[k.val].extractLsb' (8 * b.val) 8 ^^^ blk[4 * k.val + b.val])
              ∧ ∀ k : Fin 24, x[8 + k.val] = s.live.s[8 + k.val])
          ∧ ∀ j : Fin 32, c.buf[j] =
              if j.val < s.live.n.val + len.toNat - 32 then winByte s.din (j.val + 32 - s.live.n.val) else 0)

/-- The phase check: UPDATE, FINAL and VERIFY raise NOT_INITIALIZED in UNINIT and USE_AFTER_FINALIZE in DONE, and nothing else
changes (R153). -/
def Obligations.PhaseCheck : Prop :=
  ∀ (s : State) (i : Instr) (e : ErrCode),
    (i = .final ∨ (∃ len : BitVec 7, len.toNat ≤ 32 ∧ i = .update len)
      ∨ (∃ taglen : BitVec 7, taglen.toNat ≤ 64 ∧ i = .verify taglen)) →
    ((s.live.phase = .uninit ∧ e = .notInitialized) ∨ (s.live.phase = .done ∧ e = .useAfterFinalize)) →
    exec i s = .next { s with err := e, esticky := true, vok := false, pending := none }

/-- FINAL in ABSORB: the held bytes, 0x80 and zero bytes are one block; after it and the F rounds the digest is in DOUT, zero
bytes above it, and the object is DONE with an empty buffer. Nothing else changes (R152, R156). Before the F rounds bit 0 of S[31]
is flipped, once (spec/41_permutation_core.md R117). -/
def Obligations.FinalResult : Prop :=
  ∀ s : State,
    s.live.Inv s.caps → s.live.phase = .absorb →
    let blk : Block := Vector.ofFn fun j =>
      if j.val < s.live.n.val then s.live.buf[j] else if j.val = s.live.n.val then 0x80 else 0
    let x := coreAbsorb s.live.s blk s.live.lp.r
    let st := cubeRound^[s.live.lp.f.toNat] (x.set 31 (x[31] ^^^ 1))
    ∃ dout : Vector Word 16,
      exec .final s = .next
        { s with
          live := { s.live with s := st, buf := zeroBlock, n := 0, phase := .done }
          dout := dout, err := .ok, vok := false, pending := none }
      ∧ ∀ j < 64, winByte dout j = if j < s.live.lp.h.toNat then winByte st j else 0

/-- What INIT, UPDATE and FINAL leave unchanged, on every path, errors included: parameters, CAPS, OVR, PARAM, DIN, KEY, TAG, the
staging context, the outside, and every register of the window but STATUS, ERR and DOUT; UPDATE leaves DOUT too, and INIT and FINAL
leave it where they raise an error (R154 to R156; spec/60_exceptions.md R202). -/
def Obligations.HashCommandsFrame : Prop :=
  ∀ (i : Instr) (s t : State),
    ((∃ bk, i = .init bk) ∨ (∃ len, i = .update len) ∨ i = .final) → exec i s = .next t →
    t.params = s.params ∧ t.caps = s.caps ∧ t.ovr = s.ovr ∧ t.param = s.param ∧ t.din = s.din ∧ t.key = s.key
    ∧ t.tag = s.tag ∧ t.staging = s.staging ∧ t.events = s.events ∧ t.returned = s.returned
    ∧ t.unpolled = s.unpolled ∧ t.draws = s.draws
    ∧ (((∃ len, i = .update len) ∨ t.err ≠ .ok) → t.dout = s.dout)
    ∧ WindowUnchangedBut (fun r => match r with | .dout _ => true | _ => false) s t

/-- Chunking invariance: in ABSORB, two cuts of one message into pieces of at most 32 bytes leave the same live context (R157). -/
def Obligations.ChunkingInvariance : Prop :=
  ∀ (s : State) (ps qs : List (List Byte)),
    s.live.phase = .absorb → (∀ c ∈ ps, c.length ≤ 32) → (∀ c ∈ qs, c.length ≤ 32) → ps.flatten = qs.flatten →
    ∃ t u, feedPieces ps s = .next t ∧ feedPieces qs s = .next u ∧ t.live = u.live

/-- INIT, UPDATEs of the pieces of a message, FINAL: DOUT holds HASH of the parameters and the message, zero bytes above it,
whatever the backend, the cut and the state before (R158). -/
def Obligations.DigestFunction : Prop :=
  ∀ (s : State) (bk : Selector) (ps : List (List Byte)),
    1 ≤ s.param.h.toNat → s.param.h.toNat ≤ 64 → (selectBackend s bk).isSome = true → (∀ c ∈ ps, c.length ≤ 32) →
    ∃ t, digestRun (.init bk) ps s = .next t ∧ t.err = .ok
      ∧ bytesOf t.dout = hashFunction s.param ps.flatten ++ List.replicate (64 - s.param.h.toNat) 0

/-! ## The MAC commands -/

/-- MAC_INIT with KEYLEN 64 completes with the object R171 describes: the two key blocks absorbed after CORE_INIT, KEY cleared. -/
def Obligations.MacInitResult : Prop :=
  ∀ (s : State) (bk : Selector) (k : Backend),
    1 ≤ s.param.h.toNat → s.param.h.toNat ≤ 64 → selectBackend s bk = some k →
    exec (.macInit 64 bk) s = .next
      { s with
        live :=
          { s := coreAbsorb
              (coreAbsorb (coreInit s.param.i s.param.r s.param.h) (Vector.ofFn fun j => winByte s.key j.val) s.param.r)
              (Vector.ofFn fun j => winByte s.key (32 + j.val)) s.param.r
            buf := zeroBlock, n := 0, phase := .absorb, mac := true, bk := some k, lp := s.param }
        dout := zeroWords 16, key := zeroWords 16, err := .ok, vok := false, pending := none }

/-- The errors of MAC_INIT in their order, each with KEY cleared and nothing else changed (R171; spec/60_exceptions.md R203). -/
def Obligations.MacInitErrors : Prop :=
  ∀ (s : State) (keylen : BitVec 7) (bk : Selector),
    let fails (e : ErrCode) : Prop :=
      exec (.macInit keylen bk) s
        = .next { s with key := zeroWords 16, err := e, esticky := true, vok := false, pending := none }
    (s.param.h.toNat = 0 ∨ 64 < s.param.h.toNat → fails .invalidParameter)
    ∧ (1 ≤ s.param.h.toNat → s.param.h.toNat ≤ 64 → keylen.toNat ≠ 64 → fails .invalidKeyLength)
    ∧ (1 ≤ s.param.h.toNat → s.param.h.toNat ≤ 64 → keylen.toNat = 64 → selectBackend s bk = none →
        fails .unavailableBackend)

/-- VERIFY of a MAC object in ABSORB: it changes nothing but ERR, VOK and BUSY, and VOK is 1 exactly when TAGLEN is H and the
first H bytes of TAG are the digest FINAL would leave in DOUT from the same state (R172). -/
def Obligations.VerifyMatchesFinal : Prop :=
  ∀ (s : State) (taglen : BitVec 7),
    s.live.phase = .absorb → s.live.mac = true → taglen.toNat ≤ 64 → s.live.lp.h.toNat ≤ 64 →
    ∃ (ok : Bool) (u : State),
      exec (.verify taglen) s = .next { s with err := .ok, vok := ok, pending := none }
      ∧ exec .final s = .next u
      ∧ (ok = true ↔ taglen = s.live.lp.h ∧ ∀ j < s.live.lp.h.toNat, winByte s.tag j = winByte u.dout j)

/-- VERIFY of an object that is no MAC object raises NOT_MAC, and nothing else changes (R172). -/
def Obligations.VerifyNeedsMacObject : Prop :=
  ∀ (s : State) (taglen : BitVec 7),
    s.live.phase = .absorb → s.live.mac = false → taglen.toNat ≤ 64 →
    exec (.verify taglen) s = .next { s with err := .notMac, esticky := true, vok := false, pending := none }

/-- What MAC_INIT and VERIFY leave unchanged, on every path: all that HASH commands do, KEY and DOUT by VERIFY, and the live
context by VERIFY and where MAC_INIT raises an error (R171, R172; spec/60_exceptions.md R202). -/
def Obligations.MacCommandsFrame : Prop :=
  ∀ (i : Instr) (s t : State),
    ((∃ keylen bk, i = .macInit keylen bk) ∨ (∃ taglen, i = .verify taglen)) → exec i s = .next t →
    t.params = s.params ∧ t.caps = s.caps ∧ t.ovr = s.ovr ∧ t.param = s.param ∧ t.din = s.din ∧ t.tag = s.tag
    ∧ t.staging = s.staging ∧ t.events = s.events ∧ t.returned = s.returned ∧ t.unpolled = s.unpolled
    ∧ t.draws = s.draws
    ∧ ((∃ taglen, i = .verify taglen) → t.key = s.key)
    ∧ (((∃ taglen, i = .verify taglen) ∨ t.err ≠ .ok) → t.live = s.live ∧ t.dout = s.dout)
    ∧ WindowUnchangedBut (fun r => match r with | .dout _ => true | _ => false) s t

/-- A MAC is the hash of the key followed by the message: MAC_INIT with a 64-byte key in KEY, the pieces, FINAL leave the DOUT
that INIT, the key and the pieces, FINAL leave, which is HASH(K ++ m) (spec/45_mac_commands.md R174). -/
def Obligations.MacEqualsPrefixedHash : Prop :=
  ∀ (s : State) (bk : Selector) (key : List Byte) (ps qs : List (List Byte)),
    1 ≤ s.param.h.toNat → s.param.h.toNat ≤ 64 → (selectBackend s bk).isSome = true → key.length = 64 →
    (∀ c ∈ ps, c.length ≤ 32) → (∀ c ∈ qs, c.length ≤ 32) → qs.flatten = key ++ ps.flatten →
    ∃ t u, digestRun (.macInit 64 bk) ps (s.withKey key) = .next t ∧ digestRun (.init bk) qs s = .next u
      ∧ t.err = .ok ∧ t.dout = u.dout
      ∧ (bytesOf t.dout).take s.param.h.toNat = hashFunction s.param (key ++ ps.flatten)

/-! ## Context, erase and no-op commands -/

/-- NOP completes with OK in every state; ESTICKY and OVR are not cleared (spec/46_context_commands.md R180). -/
def Obligations.NopResult : Prop :=
  ∀ s : State, exec .nop s = .next { s with err := .ok, vok := false, pending := none }

/-- CTX_SAVE in every phase: CS is S, CB holds BUF, CM and CP hold the fields R45 and R46 lay out; nothing else changes (R181). -/
def Obligations.CtxSaveResult : Prop :=
  ∀ s : State,
    ∃ cb : Vector Word 8, ∃ cm cp : Word,
      exec .ctxSave s = .next
        { s with staging := { cs := s.live.s, cb := cb, cm := cm, cp := cp }, err := .ok, vok := false, pending := none }
      ∧ (∀ j : Fin 32, winByte cb j.val = s.live.buf[j])
      ∧ cm &&& 0x001F0770 = cm
      ∧ cm.extractLsb' 4 2 = (match s.live.phase with | .uninit => 0 | .absorb => 1 | .done => 2)
      ∧ cm.getLsbD 6 = s.live.mac
      ∧ cm.extractLsb' 8 3 =
          (match s.live.bk with
          | none => 0 | some .soft => 1 | some .sse2 => 2 | some .avx2 => 3 | some .avx512 => 4 | some .neon => 5)
      ∧ (cm.extractLsb' 16 5).toNat = s.live.n.val
      ∧ cp.extractLsb' 0 8 = s.live.lp.i ∧ cp.extractLsb' 8 8 = s.live.lp.r ∧ cp.extractLsb' 16 8 = s.live.lp.f
      ∧ cp.extractLsb' 24 7 = s.live.lp.h ∧ cp.getLsbD 31 = false

/-- CTX_LOAD of a staging context that passes every check: the live context is what the staging context says, bytes of CB at and
above n read as 0; an UNINIT one gives the all-zero context. Nothing else changes (R182). -/
def Obligations.CtxLoadResult : Prop :=
  ∀ (s : State) (ph : Phase) (k : Backend),
    let g := s.staging
    g.cm &&& ~~~(0x001F0770 : Word) = 0 →
    (cmPhase g.cm = some .uninit → g.cm = 0 →
      exec .ctxLoad s = .next { s with live := Live.uninit, err := .ok, vok := false, pending := none })
    ∧ (cmPhase g.cm = some ph → ph ≠ .uninit → (ph = .done → g.cm.extractLsb' 16 5 = 0) → g.cp.getLsbD 31 = false →
        1 ≤ (g.cp.extractLsb' 24 7).toNat → (g.cp.extractLsb' 24 7).toNat ≤ 64 →
        (g.cm.extractLsb' 8 3).toNat = backendId k → s.caps.getLsbD (backendId k - 1) = true →
        ∃ c : Live,
          exec .ctxLoad s = .next { s with live := c, err := .ok, vok := false, pending := none }
          ∧ c.s = g.cs
          ∧ (∀ j : Fin 32, c.buf[j] = if j.val < (g.cm.extractLsb' 16 5).toNat then winByte g.cb j.val else 0)
          ∧ c.n.val = (g.cm.extractLsb' 16 5).toNat ∧ c.phase = ph ∧ c.mac = g.cm.getLsbD 6 ∧ c.bk = some k
          ∧ c.lp.i = g.cp.extractLsb' 0 8 ∧ c.lp.r = g.cp.extractLsb' 8 8 ∧ c.lp.f = g.cp.extractLsb' 16 8
          ∧ c.lp.h = g.cp.extractLsb' 24 7)

/-- The errors of CTX_LOAD: BAD_CONTEXT for each check of R182, then UNAVAILABLE_BACKEND; nothing else changes. -/
def Obligations.CtxLoadErrors : Prop :=
  ∀ s : State,
    let g := s.staging
    let phaseField := (g.cm.extractLsb' 4 2).toNat
    let fails (e : ErrCode) : Prop :=
      exec .ctxLoad s = .next { s with err := e, esticky := true, vok := false, pending := none }
    let bad : Prop :=
      g.cm &&& ~~~(0x001F0770 : Word) ≠ 0
      ∨ phaseField = 3
      ∨ (phaseField = 0 ∧ (g.cm.getLsbD 6 = true ∨ g.cm.extractLsb' 8 3 ≠ 0 ∨ g.cm.extractLsb' 16 5 ≠ 0))
      ∨ (phaseField = 2 ∧ g.cm.extractLsb' 16 5 ≠ 0)
      ∨ (phaseField ≠ 0 ∧ (g.cp.getLsbD 31 = true ∨ (g.cp.extractLsb' 24 7).toNat = 0
          ∨ 64 < (g.cp.extractLsb' 24 7).toNat ∨ (g.cm.extractLsb' 8 3).toNat = 0 ∨ 5 < (g.cm.extractLsb' 8 3).toNat))
    (bad → fails .badContext)
    ∧ (¬ bad → phaseField ≠ 0 → s.caps.getLsbD ((g.cm.extractLsb' 8 3).toNat - 1) = false → fails .unavailableBackend)

/-- ZEROIZE with the capability: the engine is in the reset state but for PARAM, CAPS, ESTICKY and OVR; without it the command
raises ILLEGAL_COMMAND and nothing else changes (R183). -/
def Obligations.ZeroizeResult : Prop :=
  ∀ s : State,
    (s.params.hasZeroize = true →
      exec .zeroize s = .next
        { State.resetWith s.params with
          caps := s.caps, param := s.param, esticky := s.esticky, ovr := s.ovr
          events := s.events, returned := s.returned, unpolled := s.unpolled, draws := s.draws })
    ∧ (s.params.hasZeroize = false →
      exec .zeroize s = .next { s with err := .illegalCommand, esticky := true, vok := false, pending := none })

/-- What NOP, CTX_SAVE, CTX_LOAD and ZEROIZE leave unchanged, on every path: parameters, CAPS, ESTICKY where they complete OK, OVR,
PARAM, the outside; NOP and CTX_SAVE the live context; all but ZEROIZE the windows; all but CTX_SAVE and ZEROIZE the staging context
(R180 to R183). -/
def Obligations.ContextCommandsFrame : Prop :=
  ∀ (i : Instr) (s t : State),
    (i = .nop ∨ i = .ctxSave ∨ i = .ctxLoad ∨ i = .zeroize) → exec i s = .next t →
    t.params = s.params ∧ t.caps = s.caps ∧ t.ovr = s.ovr ∧ t.param = s.param
    ∧ t.events = s.events ∧ t.returned = s.returned ∧ t.unpolled = s.unpolled ∧ t.draws = s.draws
    ∧ (t.err = .ok → t.esticky = s.esticky)
    ∧ ((i = .nop ∨ i = .ctxSave) → t.live = s.live)
    ∧ (i ≠ .zeroize → t.din = s.din ∧ t.key = s.key ∧ t.tag = s.tag ∧ t.dout = s.dout)
    ∧ ((i = .nop ∨ i = .ctxLoad) → WindowUnchangedBut (fun _ => false) s t)
    ∧ (i = .ctxSave →
        WindowUnchangedBut (fun r => match r with | .cs _ | .cb _ | .cm | .cp => true | _ => false) s t)

/-- Clone: a context saved by CTX_SAVE and loaded by CTX_LOAD, by this engine later or by another with the same CAPS, is the
context saved, for every context that meets the invariant (R184; R181, R182). -/
def Obligations.CloneRestoresContext : Prop :=
  ∀ s t u : State,
    s.live.Inv s.caps → exec .ctxSave s = .next t → u.staging = t.staging → u.caps = s.caps →
    exec .ctxLoad u = .next { u with live := s.live, err := .ok, vok := false, pending := none }

/-! ## The whole machine -/

/-- No backend changes a result: states that agree but for PREF, STATUS.BK and CM.BK stay so under the same command, INIT and
MAC_INIT choosing any available backends; and such states read the same in every register but STATUS and CM, and there in every bit
but 10:8 (spec/42_backends.md R137; spec/43_dispatcher.md R145). -/
def Obligations.NoBackendChangesResult : Prop :=
  ∀ (s t : State) (i j : Instr),
    StateTwins s t → CommandTwins s t i j →
    OutcomeRel StateTwins (exec i s) (exec j t)
    ∧ (∀ r : Reg, r ≠ .status → r ≠ .cm → regValue s r = regValue t r)
    ∧ (∀ r : Reg, regValue s r &&& ~~~(0x700 : Word) = regValue t r &&& ~~~(0x700 : Word))

/-- A core that counts each ROUND it applies performs every command to the same outcome as `exec`, and the ROUNDs it has counted
are those of R240's table, none where the command raises an error: so at most 765 (spec/70_reset_and_hazards.md R240). -/
def Obligations.WorkIsBounded : Prop :=
  (∀ (n : Nat) (x : Metered), (meteredRounds n x).core = cubeRound^[n] x.core ∧ (meteredRounds n x).count = x.count + n)
  ∧ ∀ (i : Instr) (s : State),
    (meteredExec i s).outcome = exec i s
    ∧ (meteredExec i s).rounds = work i s
    ∧ (∀ t, exec i s = .next t →
        (t.err = .ok → (meteredExec i s).rounds = okWork s i) ∧ (t.err ≠ .ok → (meteredExec i s).rounds = 0))
    ∧ (meteredExec i s).rounds ≤ 765
end

