-- ==== Sys2Proof/Laws/Bytes.lean ====
section
/-!
SUPPORT. Bytes of words and windows, and the fields of a command word.
-/

namespace Sys2Proof.Machine

@[simp] theorem byteOf_le32_zero (b0 b1 b2 b3 : Byte) : byteOf (le32 b0 b1 b2 b3) 0 = b0 := by
  apply BitVec.eq_of_getLsbD_eq
  intro i hi
  simp only [le32, byteOf, BitVec.getLsbD_extractLsb', BitVec.getLsbD_or, BitVec.getLsbD_setWidth,
    BitVec.getLsbD_shiftLeft]
  simp [hi, show i < 32 by omega, show i < 16 by omega, show i < 24 by omega]

@[simp] theorem byteOf_le32_one (b0 b1 b2 b3 : Byte) : byteOf (le32 b0 b1 b2 b3) 1 = b1 := by
  apply BitVec.eq_of_getLsbD_eq
  intro i hi
  simp only [le32, byteOf, BitVec.getLsbD_extractLsb', BitVec.getLsbD_or, BitVec.getLsbD_setWidth,
    BitVec.getLsbD_shiftLeft]
  simp [hi, show 8 + i < 32 by omega, show i < 32 by omega, show 8 + i < 16 by omega, show 8 + i < 24 by omega]

@[simp] theorem byteOf_le32_two (b0 b1 b2 b3 : Byte) : byteOf (le32 b0 b1 b2 b3) 2 = b2 := by
  apply BitVec.eq_of_getLsbD_eq
  intro i hi
  have h0 : b0.getLsbD (16 + i) = false := BitVec.getLsbD_of_ge _ _ (by omega)
  simp only [le32, byteOf, BitVec.getLsbD_extractLsb', BitVec.getLsbD_or, BitVec.getLsbD_setWidth,
    BitVec.getLsbD_shiftLeft]
  simp [hi, h0, show 16 + i < 32 by omega, show i < 32 by omega, show 16 + i < 24 by omega,
    show 16 + i - 8 = 8 + i by omega]

@[simp] theorem byteOf_le32_three (b0 b1 b2 b3 : Byte) : byteOf (le32 b0 b1 b2 b3) 3 = b3 := by
  apply BitVec.eq_of_getLsbD_eq
  intro i hi
  have h0 : b0.getLsbD (24 + i) = false := BitVec.getLsbD_of_ge _ _ (by omega)
  have h1 : b1.getLsbD (16 + i) = false := BitVec.getLsbD_of_ge _ _ (by omega)
  simp only [le32, byteOf, BitVec.getLsbD_extractLsb', BitVec.getLsbD_or, BitVec.getLsbD_setWidth,
    BitVec.getLsbD_shiftLeft]
  simp [hi, h0, h1, show 24 + i < 32 by omega, show i < 32 by omega,
    show 24 + i - 8 = 16 + i by omega, show 24 + i - 16 = 8 + i by omega]

/-- A word is the little-endian word of its own bytes (R16). -/
@[simp] theorem le32_byteOf (w : Word) : le32 (byteOf w 0) (byteOf w 1) (byteOf w 2) (byteOf w 3) = w := by
  apply BitVec.eq_of_getLsbD_eq
  intro i hi
  simp only [le32, byteOf, BitVec.getLsbD_extractLsb', BitVec.getLsbD_or, BitVec.getLsbD_setWidth,
    BitVec.getLsbD_shiftLeft]
  by_cases h1 : i < 8
  · simp [h1, hi, show i < 16 by omega, show i < 24 by omega]
  by_cases h2 : i < 16
  · simp [h1, h2, hi, show i - 8 < 8 by omega, show i < 24 by omega, show 8 + (i - 8) = i by omega,
      show i - 8 < 32 by omega]
  by_cases h3 : i < 24
  · simp [h1, h2, h3, hi, show ¬ i - 8 < 8 by omega, show i - 16 < 8 by omega, show 16 + (i - 16) = i by omega,
      show i - 16 < 32 by omega]
  · simp [h1, h2, h3, hi, show ¬ i - 8 < 8 by omega, show ¬ i - 16 < 8 by omega, show i - 24 < 8 by omega,
      show 24 + (i - 24) = i by omega, show i - 24 < 32 by omega]

/-- Byte `b` of word `k` of a block (R64). -/
theorem byteOf_blockWord (blk : Block) (k b : Nat) (h : b < 4) : byteOf (blockWord blk k) b = blockByte blk (4 * k + b) := by
  obtain rfl | rfl | rfl | rfl : b = 0 ∨ b = 1 ∨ b = 2 ∨ b = 3 := by omega
  all_goals simp [blockWord]

/-- Bytes of an exclusive or (R16). -/
theorem byteOf_xor (x y : Word) (k : Nat) : byteOf (x ^^^ y) k = byteOf x k ^^^ byteOf y k := by
  simp only [byteOf, BitVec.extractLsb'_xor]

/-- Byte `j` of a packed window is the byte it was packed from (R63). -/
theorem winByte_packBytes (k : Nat) (f : Nat → Byte) (j : Nat) (h : j < 4 * k) : winByte (packBytes k f) j = f j := by
  have hk : j / 4 < k := by omega
  have e : j = 4 * (j / 4) + j % 4 := by omega
  have hm : j % 4 = 0 ∨ j % 4 = 1 ∨ j % 4 = 2 ∨ j % 4 = 3 := by omega
  unfold winByte packBytes
  rw [Vector.getElem?_eq_getElem hk]
  simp only [Vector.getElem_ofFn, Option.getD_some]
  rcases hm with h' | h' | h' | h' <;> rw [h'] at e ⊢
  · rw [byteOf_le32_zero, ← Nat.add_zero (4 * (j / 4)), ← e]
  · rw [byteOf_le32_one, ← e]
  · rw [byteOf_le32_two, ← e]
  · rw [byteOf_le32_three, ← e]

/-- Packing the bytes of a window gives the window back (R63). -/
theorem packBytes_winByte {k : Nat} (w : Vector Word k) : packBytes k (winByte w) = w := by
  ext i hi
  have h1 : (4 * i + 1) / 4 = i := by omega
  have h2 : (4 * i + 2) / 4 = i := by omega
  have h3 : (4 * i + 3) / 4 = i := by omega
  simp [packBytes, winByte, h1, h2, h3, hi]

@[simp] theorem bytesOf_length {k : Nat} (w : Vector Word k) : (bytesOf w).length = 4 * k := by
  simp [bytesOf]

/-- Element `j` of a window's byte string is byte `j` of the window. -/
theorem bytesOf_getD {k : Nat} (w : Vector Word k) (j : Nat) (h : j < 4 * k) : (bytesOf w).getD j 0 = winByte w j := by
  simp [bytesOf, h]

/-- The byte string of a packed window. -/
theorem bytesOf_packBytes (k : Nat) (f : Nat → Byte) : bytesOf (packBytes k f) = (List.range (4 * k)).map f := by
  unfold bytesOf
  apply List.map_congr_left
  intro j hj
  exact winByte_packBytes k f j (List.mem_range.mp hj)

/-- The first bytes of DIN after LOADDIN of at most 32 bytes are those bytes (R100). -/
theorem bytesOf_pack_take (b : List Byte) (k : Nat) (h : b.length ≤ 4 * k) :
    (bytesOf (packBytes k fun j => b.getD j 0)).take b.length = b := by
  rw [bytesOf_packBytes]
  apply List.ext_getElem
  · simp; omega
  · intro i h1 h2
    simp [h2]

end Sys2Proof.Machine

namespace Sys2Proof

@[simp] theorem opField_commandWord (op : BitVec 8) (arg : BitVec 7) (bk : BitVec 3) :
    opField (commandWord op arg bk) = op := by
  apply BitVec.eq_of_getLsbD_eq
  intro i hi
  simp only [opField, commandWord, BitVec.getLsbD_extractLsb', BitVec.getLsbD_or, BitVec.getLsbD_setWidth,
    BitVec.getLsbD_shiftLeft]
  simp [hi, show i < 16 by omega, show i < 32 by omega]

@[simp] theorem argField_commandWord (op : BitVec 8) (arg : BitVec 7) (bk : BitVec 3) :
    argField (commandWord op arg bk) = arg := by
  apply BitVec.eq_of_getLsbD_eq
  intro i hi
  simp only [argField, commandWord, BitVec.getLsbD_extractLsb', BitVec.getLsbD_or, BitVec.getLsbD_setWidth,
    BitVec.getLsbD_shiftLeft]
  simp [hi, show 8 + i < 16 by omega, show 8 + i < 32 by omega, show i < 32 by omega]

@[simp] theorem bkField_commandWord (op : BitVec 8) (arg : BitVec 7) (bk : BitVec 3) :
    bkField (commandWord op arg bk) = bk := by
  apply BitVec.eq_of_getLsbD_eq
  intro i hi
  have h1 : op.getLsbD (16 + i) = false := BitVec.getLsbD_of_ge _ _ (by omega)
  have h2 : arg.getLsbD (16 + i - 8) = false := BitVec.getLsbD_of_ge _ _ (by omega)
  simp only [bkField, commandWord, BitVec.getLsbD_extractLsb', BitVec.getLsbD_or, BitVec.getLsbD_setWidth,
    BitVec.getLsbD_shiftLeft]
  simp [hi, h1, h2, show 16 + i < 32 by omega, show i < 32 by omega]

/-- A selector is read back from the field it is written as (R94). -/
@[simp] theorem Selector.ofField_toField (sel : Selector) : Selector.ofField sel.toField = some sel := by
  cases sel with
  | auto => rfl
  | named b => cases b <;> rfl

end Sys2Proof
end

