-- ==== Sys2Proof/Laws/Permutation.lean ====
section
/-!
SUPPORT. The words of each operation of the permutation core (spec/41_permutation_core.md R110 to R118).
-/

namespace Sys2Proof.Machine

@[simp] theorem halfA_getElem (s : CoreState) (i : Nat) (h : i < 16) : (halfA s)[i] = s[i] := by simp [halfA]

@[simp] theorem halfB_getElem (s : CoreState) (i : Nat) (h : i < 16) : (halfB s)[i] = s[16 + i] := by simp [halfB]

@[simp] theorem joinHalves_halfA (s : CoreState) : joinHalves (halfA s) (halfB s) = s := by
  ext i hi
  by_cases h : i < 16
  · simp [joinHalves, h]
  · simp [joinHalves, h, show 16 + (i - 16) = i by omega]

@[simp] theorem halfA_joinHalves (a b : Half) : halfA (joinHalves a b) = a := by
  ext i hi
  simp [halfA, joinHalves]

@[simp] theorem halfB_joinHalves (a b : Half) : halfB (joinHalves a b) = b := by
  ext i hi
  simp [halfB, joinHalves]

/-- A permutation of lanes by an xor with `m` is its own inverse (R111). -/
@[simp] theorem permuteLanes_permuteLanes (m : Fin 16) (x : Half) : permuteLanes m (permuteLanes m x) = x := by
  ext i hi
  have h : ((⟨i, hi⟩ : Fin 16) ^^^ m) ^^^ m = ⟨i, hi⟩ := by
    revert m
    generalize (⟨i, hi⟩ : Fin 16) = j
    revert j
    decide
  simp [permuteLanes, h]

theorem rounds_zero (s : CoreState) : rounds 0 s = s := rfl

theorem rounds_succ (n : Nat) (s : CoreState) : rounds (n + 1) s = rounds n (cubeRound s) := rfl

/-- m + n rounds are m rounds followed by n rounds (R114). -/
theorem rounds_comp (m n : Nat) (s : CoreState) : rounds n (rounds m s) = rounds (m + n) s := by
  induction m generalizing s with
  | zero => simp [rounds_zero]
  | succ m ih => rw [Nat.succ_add, rounds_succ, rounds_succ, ih]

/-- The words a block is xored into (R116). -/
theorem xorBlock_getElem_low (s : CoreState) (blk : Block) (k : Nat) (h : k < 8) :
    (xorBlock s blk)[k] = s[k] ^^^ blockWord blk k := by simp [xorBlock, h]

/-- The bytes of the words a block is xored into: byte 4k + b of the block goes to byte b of word k (R116, R64). -/
theorem xorBlock_byte (s : CoreState) (blk : Block) (k b : Nat) (h : k < 8) (hb : b < 4) :
    byteOf (xorBlock s blk)[k] b = byteOf s[k] b ^^^ blk[4 * k + b] := by
  rw [xorBlock_getElem_low s blk k h, byteOf_xor, byteOf_blockWord blk k b hb]
  simp [blockByte, show 4 * k + b < 32 by omega]

/-- The words that carry the chaining state forward (R116). -/
theorem xorBlock_getElem_high (s : CoreState) (blk : Block) (k : Nat) (h : 8 ≤ k) (hk : k < 32) :
    (xorBlock s blk)[k] = s[k] := by simp [xorBlock, show ¬ k < 8 by omega]

@[simp] theorem coreOut_length (s : CoreState) (h : BitVec 7) : (coreOut s h).length = h.toNat := by
  have := h.isLt
  simp [coreOut]
  omega

/-- Output byte `j` (R118). -/
theorem coreOut_getD (s : CoreState) (h : BitVec 7) (j : Nat) (hj : j < h.toNat) :
    (coreOut s h).getD j 0 = winByte s j := by
  have h1 := h.isLt
  have : j < 4 * 32 := by omega
  simp [coreOut, hj, bytesOf, this]

/-- Absorbing the whole blocks of a message, and one more block's worth of bytes. -/
theorem absorbWhole_nil (r : BitVec 8) (st : CoreState) : absorbWhole r st [] = st := rfl

end Sys2Proof.Machine
end

