-- ==== Sys2Proof/Laws/Ops.lean ====
section
/-!
SUPPORT. What each shared operation of the commands can do (spec/43_dispatcher.md R142, R143; spec/44_hash_commands.md R150 to R153).
-/

namespace Sys2Proof.Machine

/-- BUF_APPEND of a byte that does not fill the buffer (R151). -/
theorem bufAppend_short (c : Live) (b : Byte) (h : c.n.val + 1 < 32) :
    bufAppend c b = { c with buf := c.buf.set c.n.val b, n := ⟨c.n.val + 1, h⟩ } := by
  simp [bufAppend, h]

/-- BUF_APPEND of the byte that fills the buffer: the block is absorbed and the buffer cleared (R151). -/
theorem bufAppend_full (c : Live) (b : Byte) (h : c.n.val = 31) :
    bufAppend c b = { c with s := coreAbsorb c.s (c.buf.set c.n.val b) c.lp.r, buf := zeroBlock, n := 0 } := by
  simp [bufAppend, h]

theorem bufAppend_keeps (c : Live) (b : Byte) :
    (bufAppend c b).phase = c.phase ∧ (bufAppend c b).mac = c.mac ∧ (bufAppend c b).bk = c.bk
      ∧ (bufAppend c b).lp = c.lp := by
  by_cases h : c.n.val + 1 < 32
  · simp [bufAppend_short c b h]
  · simp [bufAppend_full c b (by omega)]

@[simp] theorem bufAppend_phase (c : Live) (b : Byte) : (bufAppend c b).phase = c.phase := (bufAppend_keeps c b).1
@[simp] theorem bufAppend_mac (c : Live) (b : Byte) : (bufAppend c b).mac = c.mac := (bufAppend_keeps c b).2.1
@[simp] theorem bufAppend_bk (c : Live) (b : Byte) : (bufAppend c b).bk = c.bk := (bufAppend_keeps c b).2.2.1
@[simp] theorem bufAppend_lp (c : Live) (b : Byte) : (bufAppend c b).lp = c.lp := (bufAppend_keeps c b).2.2.2

@[simp] theorem bufAppendAll_nil (c : Live) : bufAppendAll c [] = c := rfl

@[simp] theorem bufAppendAll_cons (c : Live) (b : Byte) (bs : List Byte) :
    bufAppendAll c (b :: bs) = bufAppendAll (bufAppend c b) bs := rfl

/-- Appending one string of bytes and then another is appending the two joined (R157). -/
theorem bufAppendAll_append (c : Live) (xs ys : List Byte) :
    bufAppendAll c (xs ++ ys) = bufAppendAll (bufAppendAll c xs) ys := List.foldl_append ..

/-- Appending bytes keeps PHASE, MAC, BK and LP. -/
theorem bufAppendAll_keeps (c : Live) (bs : List Byte) :
    (bufAppendAll c bs).phase = c.phase ∧ (bufAppendAll c bs).mac = c.mac ∧ (bufAppendAll c bs).bk = c.bk
      ∧ (bufAppendAll c bs).lp = c.lp := by
  induction bs generalizing c with
  | nil => simp
  | cons b bs ih => simpa using ih (bufAppend c b)

@[simp] theorem bufAppendAll_phase (c : Live) (bs : List Byte) : (bufAppendAll c bs).phase = c.phase :=
  (bufAppendAll_keeps c bs).1
@[simp] theorem bufAppendAll_mac (c : Live) (bs : List Byte) : (bufAppendAll c bs).mac = c.mac :=
  (bufAppendAll_keeps c bs).2.1
@[simp] theorem bufAppendAll_bk (c : Live) (bs : List Byte) : (bufAppendAll c bs).bk = c.bk :=
  (bufAppendAll_keeps c bs).2.2.1
@[simp] theorem bufAppendAll_lp (c : Live) (bs : List Byte) : (bufAppendAll c bs).lp = c.lp :=
  (bufAppendAll_keeps c bs).2.2.2

/-- The count after appending `bs`: the total modulo 32 (R151, R155). -/
theorem bufAppendAll_n (c : Live) (bs : List Byte) :
    (bufAppendAll c bs).n.val = (c.n.val + bs.length) % 32 := by
  induction bs generalizing c with
  | nil => simp [Nat.mod_eq_of_lt c.n.isLt]
  | cons b bs ih =>
    rw [bufAppendAll_cons, ih]
    by_cases h : c.n.val + 1 < 32
    · simp only [bufAppend_short c b h, List.length_cons]
      omega
    · have h31 : c.n.val = 31 := by omega
      simp only [bufAppend_full c b h31, List.length_cons]
      simp
      omega

/-- BUF_APPEND keeps the bytes at and above N zero (spec/10_state.md R32 item 1). -/
theorem bufAppend_zero_above (c : Live) (b : Byte) (h : ∀ j : Fin 32, c.n.val ≤ j.val → c.buf[j] = 0) :
    ∀ j : Fin 32, (bufAppend c b).n.val ≤ j.val → (bufAppend c b).buf[j] = 0 := by
  intro j hj
  by_cases hn : c.n.val + 1 < 32
  · rw [bufAppend_short c b hn] at hj ⊢
    simp only at hj ⊢
    have hne : c.n.val ≠ j.val := by omega
    have := h j (by omega)
    simp only [Fin.getElem_fin] at this ⊢
    rw [Vector.getElem_set_ne _ _ hne]
    exact this
  · rw [bufAppend_full c b (by omega)]
    simp [zeroBlock]

theorem bufAppendAll_zero_above (c : Live) (bs : List Byte) (h : ∀ j : Fin 32, c.n.val ≤ j.val → c.buf[j] = 0) :
    ∀ j : Fin 32, (bufAppendAll c bs).n.val ≤ j.val → (bufAppendAll c bs).buf[j] = 0 := by
  induction bs generalizing c with
  | nil => simpa using h
  | cons b bs ih => simpa using ih (bufAppend c b) (bufAppend_zero_above c b h)

/-- BUF after appending bytes that do not fill it: the bytes follow the N held ones (R151). -/
def bufferWith (c : Live) (bs : List Byte) : Block :=
  Vector.ofFn fun j => if j.val < c.n.val then c.buf[j] else bs.getD (j.val - c.n.val) c.buf[j]

/-- Appending fewer bytes than fill the buffer: they are held after the N bytes there, and S is unchanged (R155). -/
theorem bufAppendAll_short (c : Live) (bs : List Byte) (h : c.n.val + bs.length < 32) :
    bufAppendAll c bs = { c with buf := bufferWith c bs, n := ⟨c.n.val + bs.length, h⟩ } := by
  induction bs generalizing c with
  | nil =>
    have : bufferWith c [] = c.buf := by apply Vector.ext; intro i hi; simp [bufferWith]
    simp [this]
  | cons b bs ih =>
    have h' : c.n.val + (bs.length + 1) < 32 := h
    rw [bufAppendAll_cons, bufAppend_short c b (by omega), ih _ (by simp only; omega), Live.mk.injEq]
    refine ⟨rfl, ?_, ?_, rfl, rfl, rfl, rfl⟩
    · apply Vector.ext
      intro i hi
      simp only [bufferWith, Vector.getElem_ofFn, Fin.getElem_fin, Vector.getElem_set]
      rcases Nat.lt_trichotomy i c.n.val with hlt | rfl | hgt
      · simp [hlt, show i < c.n.val + 1 by omega, show ¬ c.n.val = i by omega]
      · simp
      · obtain ⟨k, rfl⟩ := Nat.exists_eq_add_of_lt hgt
        simp [show ¬ c.n.val + k + 1 < c.n.val + 1 by omega, show ¬ c.n.val + k + 1 < c.n.val by omega,
          show c.n.val + k + 1 - (c.n.val + 1) = k by omega, show c.n.val + k + 1 - c.n.val = k + 1 by omega,
          show ¬ c.n.val = c.n.val + k + 1 by omega]
    · exact Fin.ext (by simp only [List.length_cons]; omega)

/-- Appending at most 32 bytes that fill the buffer: one block is absorbed and the rest is held (R155). -/
theorem bufAppendAll_full (c : Live) (bs : List Byte) (h : 32 ≤ c.n.val + bs.length) (hl : bs.length ≤ 32) :
    bufAppendAll c bs =
      { c with
        s := coreAbsorb c.s (bufferWith c bs) c.lp.r
        buf := Vector.ofFn fun j => bs.getD (j.val + 32 - c.n.val) 0
        n := ⟨c.n.val + bs.length - 32, by omega⟩ } := by
  have hn := c.n.isLt
  obtain ⟨xs, b, ys, rfl, hx⟩ : ∃ xs b ys, bs = xs ++ b :: ys ∧ xs.length = 31 - c.n.val := by
    have hlt : 31 - c.n.val < bs.length := by omega
    refine ⟨bs.take (31 - c.n.val), bs[31 - c.n.val], bs.drop (31 - c.n.val + 1), ?_, by simp; omega⟩
    rw [← List.drop_eq_getElem_cons hlt, List.take_append_drop]
  simp only [List.length_append, List.length_cons] at h hl
  have hfill : (bufferWith c xs).set 31 b = bufferWith c (xs ++ b :: ys) := by
    apply Vector.ext
    intro i hi
    simp only [bufferWith, Vector.getElem_ofFn, Fin.getElem_fin, Vector.getElem_set]
    rcases Nat.lt_or_ge i c.n.val with hlt | hge
    · simp [hlt, show ¬ 31 = i by omega]
    · by_cases h31 : 31 = i
      · subst h31
        simp [hx, show ¬ 31 < c.n.val by omega]
      · simp [h31, show ¬ i < c.n.val by omega, List.getElem?_append_left (show i - c.n.val < xs.length by omega)]
  rw [bufAppendAll_append, bufAppendAll_short c xs (by omega), bufAppendAll_cons, bufAppend_full _ _ (by simp only; omega)]
  rw [bufAppendAll_short _ ys (by simp; omega)]
  have e31 : c.n.val + xs.length = 31 := by omega
  simp only [e31, hfill, Live.mk.injEq]
  refine ⟨trivial, ?_, ?_, trivial, trivial, trivial, trivial⟩
  · apply Vector.ext
    intro i hi
    simp only [bufferWith, Vector.getElem_ofFn, Fin.getElem_fin, zeroBlock, Vector.getElem_replicate]
    simp [List.getElem?_append_right (show xs.length ≤ i + 32 - c.n.val by omega),
      show i + 32 - c.n.val - xs.length = i + 1 by omega]
  · exact Fin.ext (by simp; omega)
@[simp] theorem padBlock_buf (c : Live) : (padBlock c).buf = zeroBlock := rfl
@[simp] theorem padBlock_n (c : Live) : (padBlock c).n = 0 := rfl
@[simp] theorem padBlock_phase (c : Live) : (padBlock c).phase = c.phase := rfl
@[simp] theorem padBlock_mac (c : Live) : (padBlock c).mac = c.mac := rfl
@[simp] theorem padBlock_bk (c : Live) : (padBlock c).bk = c.bk := rfl
@[simp] theorem padBlock_lp (c : Live) : (padBlock c).lp = c.lp := rfl
@[simp] theorem finalized_buf (c : Live) : (finalized c).buf = zeroBlock := rfl
@[simp] theorem finalized_n (c : Live) : (finalized c).n = 0 := rfl
@[simp] theorem finalized_mac (c : Live) : (finalized c).mac = c.mac := rfl
@[simp] theorem finalized_bk (c : Live) : (finalized c).bk = c.bk := rfl
@[simp] theorem finalized_lp (c : Live) : (finalized c).lp = c.lp := rfl

/-- The phase check passes in ABSORB only (R153). -/
theorem guardAbsorb_eq_none (c : Live) : guardAbsorb c = none ↔ c.phase = .absorb := by
  cases h : c.phase <;> simp [guardAbsorb, h]

/-- The errors the phase check raises (R153). -/
theorem guardAbsorb_eq_some (c : Live) (e : ErrCode) :
    guardAbsorb c = some e ↔
      (c.phase = .uninit ∧ e = .notInitialized) ∨ (c.phase = .done ∧ e = .useAfterFinalize) := by
  cases h : c.phase <;> simp [guardAbsorb, h, eq_comm]

/-- Soft is always present (R34). -/
@[simp] theorem available_capsOf_soft (p : Config.Params) : available (capsOf p) .soft = true := by
  simp [available, capsOf, backendId, backendPresent, bitWord]

/-- Automatic selection chooses a backend of PREF that is present, where Soft is (R143). -/
theorem selectAuto_available (p : Config.Params) (caps : Word) (h : available caps .soft = true) :
    available caps (selectAuto p caps) = true := by
  unfold selectAuto
  cases hf : p.pref.find? (available caps) with
  | none => simpa using h
  | some b => simpa using List.find?_some hf

/-- Explicit selection answers the named backend or nothing (R142). -/
theorem selectExplicit_eq_some (caps : Word) (b k : Backend) :
    selectExplicit caps b = some k ↔ k = b ∧ available caps b = true := by
  unfold selectExplicit
  by_cases h : available caps b = true <;> simp [h, eq_comm]

end Sys2Proof.Machine
end

