-- ==== Sys2Proof/Laws/Backends.lean ====
section
/-!
SUPPORT. Each operation of the machine with backends, seen in logical order (spec/42_backends.md R131 to R133).
-/

namespace Sys2Proof.Machine

variable {m : BackendModules}

/-- `absorb_block` in logical order (R132). -/
theorem BackendModule.dec_absorb (k : BackendModule) (x : k.Rep) (blk : Block) (r : BitVec 8) :
    k.dec (k.absorb x blk r) = coreAbsorb (k.dec x) blk r := by
  conv_lhs => rw [← k.enc_dec x]
  rw [k.absorb_enc, k.dec_enc]

/-- `finalize` in logical order (R132). -/
theorem BackendModule.finalize_eq (k : BackendModule) (x : k.Rep) (f : BitVec 8) (h : BitVec 7) :
    k.finalize x f h = (k.enc (coreFinal (k.dec x) f), coreOut (coreFinal (k.dec x) f) h) := by
  conv_lhs => rw [← k.enc_dec x]
  rw [k.finalize_enc]

/-- `init` in logical order (R132). -/
theorem BackendModule.dec_init (k : BackendModule) (i r : BitVec 8) (h : BitVec 7) :
    k.dec (k.init i r h) = coreInit i r h := by rw [k.init_enc, k.dec_enc]

/-- BUF_APPEND of a byte that does not fill the buffer (spec/44_hash_commands.md R151). -/
theorem backendAppend_short (o : HeldObject m) (b : Byte) (h : o.n.val + 1 < 32) :
    backendAppend o b = { o with buf := o.buf.set o.n.val b, n := ⟨o.n.val + 1, h⟩ } := by
  unfold backendAppend; exact dif_pos h

/-- BUF_APPEND of the byte that fills the buffer (R151). -/
theorem backendAppend_full (o : HeldObject m) (b : Byte) (h : ¬ o.n.val + 1 < 32) :
    backendAppend o b =
      { o with rep := (m o.backend).absorb o.rep (o.buf.set o.n.val b) o.lp.r, buf := zeroBlock, n := 0 } := by
  unfold backendAppend; exact dif_neg h

/-- BUF_APPEND in logical order (R151). -/
theorem logicalLive_backendAppend (o : HeldObject m) (b : Byte) :
    logicalLive (some (backendAppend o b)) = bufAppend (logicalLive (some o)) b := by
  by_cases h : o.n.val + 1 < 32
  · rw [backendAppend_short o b h, bufAppend_short _ _ h]; rfl
  · rw [backendAppend_full o b h, bufAppend_full _ _ (show o.n.val = 31 by omega)]
    simp only [logicalLive, BackendModule.dec_absorb]

theorem logicalLive_backendAppendAll (bs : List Byte) (o : HeldObject m) :
    logicalLive (some (bs.foldl backendAppend o)) = bufAppendAll (logicalLive (some o)) bs := by
  induction bs generalizing o with
  | nil => rfl
  | cons b bs ih => rw [List.foldl_cons, ih, logicalLive_backendAppend, bufAppendAll_cons]

/-- The phase check in logical order (R153). -/
theorem backendGuard_error (h : Option (HeldObject m)) (e : ErrCode) :
    backendGuard h = .error e ↔ guardAbsorb (logicalLive h) = some e := by
  cases h with
  | none => simp [backendGuard, guardAbsorb, logicalLive, Live.uninit]
  | some o => cases hd : o.done <;> simp [backendGuard, guardAbsorb, logicalLive, hd]

/-- The object that passes the phase check is the one held, in ABSORB (R153). -/
theorem backendGuard_ok (h : Option (HeldObject m)) (o : HeldObject m) :
    backendGuard h = .ok o ↔ h = some o ∧ o.done = false := by
  cases h with
  | none => simp [backendGuard]
  | some p =>
    by_cases hd : p.done = true
    · simp only [backendGuard, hd, if_true, reduceCtorEq, Option.some.injEq, false_iff, not_and]
      rintro rfl; simp [hd]
    · simp only [backendGuard, hd, if_false, Except.ok.injEq, Option.some.injEq, Bool.false_eq_true, iff_self_and]
      rintro rfl; simpa using hd

/-- The digest in logical order (R156, R172). -/
theorem backendDigest_eq (o : HeldObject m) :
    backendDigest o =
      ((m o.backend).enc (finalized (logicalLive (some o))).s, digestOf (logicalLive (some o))) := by
  rw [backendDigest, BackendModule.finalize_eq, BackendModule.dec_absorb]; rfl

/-- A context that names a backend unless it is the UNINIT one is moved in and out unchanged (R135). -/
theorem logicalLive_holdContext (c : Live) (h : c.bk = none → c = Live.uninit)
    (hp : c.bk ≠ none → c.phase ≠ .uninit) : logicalLive (holdContext m c) = c := by
  cases hb : c.bk with
  | none => rw [h hb]; rfl
  | some k =>
    have hph := hp (by simp [hb])
    have he : (if decide (c.phase = Phase.done) = true then Phase.done else Phase.absorb) = c.phase := by
      cases hc : c.phase <;> simp_all
    simp only [holdContext, hb, Option.map_some, logicalLive, (m k).dec_enc, he]
    rw [← hb]

end Sys2Proof.Machine
end

