-- ==== Sys2Proof/Laws/Flags.lean ====
section
/-!
SUPPORT. The bits of CAPS, STATUS, CM and PARAM words (spec/10_state.md R34 to R36, R45, R46), and the offset of STATUS.
-/

namespace Sys2Proof.Machine

/-- The bits of a one-bit word. -/
theorem bitWord_getLsbD (k : Nat) (b : Bool) (hk : k < 32) (i : Nat) :
    (bitWord k b).getLsbD i = (decide (i = k) && b) := by
  cases b with
  | false => simp [bitWord]
  | true =>
    simp only [bitWord, if_true, BitVec.getLsbD_twoPow, hk, decide_true, Bool.true_and, Bool.and_true]
    exact decide_eq_decide.mpr eq_comm

/-- The bits of the PHASE code above bit 1 are 0. -/
theorem phaseCode_getLsbD (p : Phase) (i : Nat) (h : 2 ≤ i) : (phaseCode p).getLsbD i = false := by
  obtain ⟨k, rfl⟩ := Nat.exists_eq_add_of_le h
  cases p <;> simp [phaseCode, BitVec.getLsbD_ofNat, Nat.testBit, Nat.shiftRight_add]

/-- The bits of the BK code above bit 2 are 0. -/
theorem bkCode_getLsbD (b : Option Backend) (i : Nat) (h : 3 ≤ i) : (bkCode b).getLsbD i = false := by
  obtain ⟨k, rfl⟩ := Nat.exists_eq_add_of_le h
  rcases b with _ | b
  · simp [bkCode]
  · cases b <;> simp [bkCode, backendId, BitVec.getLsbD_ofNat, Nat.testBit, Nat.shiftRight_add]

/-- The bits of N above bit 4 are 0. -/
theorem countBits_getLsbD (n : Fin 32) (i : Nat) (h : 5 ≤ i) : (BitVec.ofNat 32 n.val).getLsbD i = false := by
  have : n.val < 2 ^ i := lt_of_lt_of_le n.isLt (by
    calc (32 : Nat) = 2 ^ 5 := by norm_num
      _ ≤ 2 ^ i := Nat.pow_le_pow_right (by omega) h)
  simp [BitVec.getLsbD_ofNat, Nat.testBit_lt_two_pow this]

/-- The bits of the context fields of STATUS and CM (R35, R45). -/
theorem contextFields_getLsbD (c : Live) (i : Nat) (hi : i < 32) :
    (contextFields c).getLsbD i =
      ((decide (4 ≤ i) && (phaseCode c.phase).getLsbD (i - 4)) || (decide (i = 6) && c.mac)
        || (decide (8 ≤ i) && (bkCode c.bk).getLsbD (i - 8))
        || (decide (16 ≤ i) && (BitVec.ofNat 32 c.n.val).getLsbD (i - 16))) := by
  have e (k : Nat) : (!decide (i < k)) = decide (k ≤ i) := by
    by_cases h : i < k
    · simp [h]
    · simp [h, Nat.le_of_not_lt h]
  simp only [contextFields, BitVec.getLsbD_or, BitVec.getLsbD_shiftLeft, hi, decide_true, Bool.true_and, e,
    bitWord_getLsbD 6 c.mac (by omega)]

/-- The bits of the STATUS word (R35). -/
theorem statusWord_getLsbD (s : State) (i : Nat) :
    (statusWord s).getLsbD i =
      ((decide (i = 0) && s.busy) || (decide (i = 1) && s.esticky) || (decide (i = 2) && s.ovr)
        || (decide (i = 3) && s.vok) || (contextFields s.live).getLsbD i) := by
  simp only [statusWord, BitVec.getLsbD_or, bitWord_getLsbD _ _ (show 0 < 32 by omega),
    bitWord_getLsbD _ _ (show 1 < 32 by omega), bitWord_getLsbD _ _ (show 2 < 32 by omega),
    bitWord_getLsbD _ _ (show 3 < 32 by omega)]

/-- The context fields begin at bit 4. -/
theorem contextFields_low (c : Live) (i : Nat) (h : i < 4) : (contextFields c).getLsbD i = false := by
  rw [contextFields_getLsbD c i (by omega)]
  simp [show ¬ 4 ≤ i by omega, show i ≠ 6 by omega, show ¬ 8 ≤ i by omega, show ¬ 16 ≤ i by omega]

/-- Bit 0 of STATUS is BUSY (R35). -/
theorem statusWord_bit0 (s : State) : (statusWord s).getLsbD 0 = s.busy := by
  rw [statusWord_getLsbD, contextFields_low _ _ (by omega)]
  simp

/-- OVR is bit 2 of STATUS (R35). -/
theorem statusWord_bit2 (s : State) : (statusWord s).getLsbD 2 = s.ovr := by
  rw [statusWord_getLsbD, contextFields_low _ _ (by omega)]
  simp

/-- The context fields of STATUS and of CM, field by field (R35, R45). -/
theorem contextFields_fields (c : Live) :
    (contextFields c).extractLsb' 4 2 = (match c.phase with | .uninit => 0 | .absorb => 1 | .done => 2)
    ∧ (contextFields c).getLsbD 6 = c.mac ∧ (contextFields c).getLsbD 7 = false
    ∧ (contextFields c).extractLsb' 8 3 =
        (match c.bk with
        | none => 0 | some .soft => 1 | some .sse2 => 2 | some .avx2 => 3 | some .avx512 => 4 | some .neon => 5)
    ∧ (contextFields c).extractLsb' 11 5 = 0
    ∧ (contextFields c).extractLsb' 16 5 = BitVec.ofNat 5 c.n.val
    ∧ (contextFields c).extractLsb' 21 11 = 0 := by
  refine ⟨?_, ?_, ?_, ?_, ?_, ?_, ?_⟩
  · apply BitVec.eq_of_getLsbD_eq
    intro i hi
    rw [BitVec.getLsbD_extractLsb', contextFields_getLsbD _ _ (by omega)]
    simp only [hi, decide_true, Bool.true_and, show ¬ 4 + i = 6 by omega, show ¬ 8 ≤ 4 + i by omega,
      show ¬ 16 ≤ 4 + i by omega, decide_false, Bool.false_and, Bool.or_false, show 4 ≤ 4 + i by omega,
      show 4 + i - 4 = i by omega]
    cases c.phase <;> interval_cases i <;> rfl
  · rw [contextFields_getLsbD _ _ (by omega), phaseCode_getLsbD _ _ (by omega)]; simp
  · rw [contextFields_getLsbD _ _ (by omega), phaseCode_getLsbD _ _ (by omega)]; simp
  · apply BitVec.eq_of_getLsbD_eq
    intro i hi
    rw [BitVec.getLsbD_extractLsb', contextFields_getLsbD _ _ (by omega), phaseCode_getLsbD _ _ (by omega)]
    simp only [hi, decide_true, Bool.true_and, show ¬ 8 + i = 6 by omega, show 8 ≤ 8 + i by omega,
      show ¬ 16 ≤ 8 + i by omega, decide_false, Bool.false_and, Bool.or_false, Bool.and_false, Bool.false_or,
      show 8 + i - 8 = i by omega]
    rcases c.bk with _ | b
    · interval_cases i <;> rfl
    · cases b <;> interval_cases i <;> rfl
  · apply BitVec.eq_of_getLsbD_eq
    intro i hi
    rw [BitVec.getLsbD_extractLsb', contextFields_getLsbD _ _ (by omega), phaseCode_getLsbD _ _ (by omega),
      bkCode_getLsbD _ _ (by omega)]
    simp [hi, show ¬ 11 + i = 6 by omega, show ¬ 16 ≤ 11 + i by omega]
  · apply BitVec.eq_of_getLsbD_eq
    intro i hi
    rw [BitVec.getLsbD_extractLsb', contextFields_getLsbD _ _ (by omega), phaseCode_getLsbD _ _ (by omega),
      bkCode_getLsbD _ _ (by omega)]
    simp only [hi, show ¬ 16 + i = 6 by omega, show 16 ≤ 16 + i by omega, show 16 + i - 16 = i by omega, decide_true,
      decide_false, Bool.true_and, Bool.false_and, Bool.and_false, Bool.false_or, Bool.or_false, BitVec.getLsbD_ofNat,
      show i < 32 by omega]
  · apply BitVec.eq_of_getLsbD_eq
    intro i hi
    rw [BitVec.getLsbD_extractLsb', contextFields_getLsbD _ _ (by omega), phaseCode_getLsbD _ _ (by omega),
      bkCode_getLsbD _ _ (by omega), countBits_getLsbD _ _ (by omega)]
    simp [show ¬ 21 + i = 6 by omega]

/-- The fields of a word in the PARAM layout (R36, R46). -/
theorem paramWord_fields (p : HashParams) :
    (paramWord p).extractLsb' 0 8 = p.i ∧ (paramWord p).extractLsb' 8 8 = p.r ∧ (paramWord p).extractLsb' 16 8 = p.f
    ∧ (paramWord p).extractLsb' 24 7 = p.h := by
  have low : (paramWord p).extractLsb' 0 8 = p.i := by
    apply BitVec.eq_of_getLsbD_eq
    intro i hi
    simp [paramWord, hi, show i < 32 by omega, show i < 16 by omega,
      show i < 24 by omega]
  have mid : (paramWord p).extractLsb' 8 8 = p.r := by
    apply BitVec.eq_of_getLsbD_eq
    intro i hi
    simp [paramWord, hi, show 8 + i < 32 by omega,
      show 8 + i < 16 by omega, show 8 + i < 24 by omega]
  have high : (paramWord p).extractLsb' 16 8 = p.f := by
    apply BitVec.eq_of_getLsbD_eq
    intro i hi
    have h0 : p.i.getLsbD (16 + i) = false := BitVec.getLsbD_of_ge _ _ (by omega)
    simp [paramWord, hi, h0, show 16 + i - 8 = 8 + i by omega,
      show 16 + i < 32 by omega, show 16 + i < 24 by omega]
  have top : (paramWord p).extractLsb' 24 7 = p.h := by
    apply BitVec.eq_of_getLsbD_eq
    intro i hi
    have h0 : p.i.getLsbD (24 + i) = false := BitVec.getLsbD_of_ge _ _ (by omega)
    have h1 : p.r.getLsbD (16 + i) = false := BitVec.getLsbD_of_ge _ _ (by omega)
    simp [paramWord, hi, h0, h1, show 24 + i - 8 = 16 + i by omega,
      show 24 + i - 16 = 8 + i by omega, show 24 + i < 32 by omega]
  exact ⟨low, mid, high, top⟩

/-- The fields of a word in the PARAM layout are read back (R36, R46). -/
theorem paramOfWord_paramWord (p : HashParams) : paramOfWord (paramWord p) = p := by
  obtain ⟨h0, h1, h2, h3⟩ := paramWord_fields p
  simp only [paramOfWord, h0, h1, h2, h3]

/-- Writing a word to PARAM and reading it back drops bit 31 alone (R36, R67). -/
theorem paramWord_paramOfWord (w : Word) : paramWord (paramOfWord w) = w &&& 0x7FFFFFFF := by
  apply BitVec.eq_of_getLsbD_eq
  intro i hi
  have hm : ∀ i < 32, (0x7FFFFFFF : Word).getLsbD i = decide (i < 31) := by decide
  rw [BitVec.getLsbD_and, hm i hi]
  simp only [paramWord, paramOfWord, BitVec.getLsbD_or, BitVec.getLsbD_setWidth, BitVec.getLsbD_shiftLeft,
    BitVec.getLsbD_extractLsb', hi, decide_true, Bool.true_and]
  by_cases h1 : i < 8
  · simp [h1, show i < 16 by omega, show i < 24 by omega, show i < 31 by omega]
  by_cases h2 : i < 16
  · simp [h1, h2, show i - 8 < 8 by omega, show i < 24 by omega, show 8 + (i - 8) = i by omega,
      show i - 8 < 32 by omega, show i < 31 by omega]
  by_cases h3 : i < 24
  · simp [h1, h2, h3, show ¬ i - 8 < 8 by omega, show i - 16 < 8 by omega, show 16 + (i - 16) = i by omega,
      show i - 16 < 32 by omega, show i < 31 by omega]
  by_cases h4 : i < 31
  · simp [h1, h2, h3, h4, show ¬ i - 8 < 8 by omega, show ¬ i - 16 < 8 by omega, show i - 24 < 7 by omega,
      show 24 + (i - 24) = i by omega, show i - 24 < 32 by omega]
  · simp [h1, h2, h3, h4, show ¬ i - 8 < 8 by omega, show ¬ i - 16 < 8 by omega, show ¬ i - 24 < 7 by omega]

/-- Bit 31 of a word in the PARAM layout is 0 (R36). -/
theorem paramWord_bit31 (p : HashParams) : (paramWord p).getLsbD 31 = false := by
  simp [paramWord]

/-- A choice between registers none of which is `c` is not `c`. -/
theorem ne_ite_of {p : Prop} [Decidable p] {a b c : Reg} (ha : a ≠ c) (hb : b ≠ c) : (if p then a else b) ≠ c := by
  split <;> assumption

theorem ne_dite_of {p : Prop} [Decidable p] {a : p → Reg} {b : ¬ p → Reg} {c : Reg} (ha : ∀ h, a h ≠ c) (hb : ∀ h, b h ≠ c) :
    (if h : p then a h else b h) ≠ c := by
  by_cases h : p
  · rw [dif_pos h]; exact ha h
  · rw [dif_neg h]; exact hb h

/-- STATUS is at its own offset alone (spec/20_memory.md R61). -/
theorem regAt_eq_status (off : Nat) : regAt off = .status ↔ off = 0x008 := by
  refine ⟨fun h => ?_, by rintro rfl; rfl⟩
  by_contra hne
  revert h
  rw [regAt, if_neg hne]
  refine ne_ite_of Reg.noConfusion (ne_ite_of Reg.noConfusion (ne_ite_of Reg.noConfusion ?_))
  refine ne_ite_of Reg.noConfusion (ne_ite_of Reg.noConfusion ?_)
  refine ne_dite_of (fun _ => Reg.noConfusion) fun _ => ne_dite_of (fun _ => Reg.noConfusion) fun _ => ?_
  refine ne_dite_of (fun _ => Reg.noConfusion) fun _ => ?_
  refine ne_dite_of (fun _ => Reg.noConfusion) fun _ => ne_dite_of (fun _ => Reg.noConfusion) fun _ => ?_
  refine ne_dite_of (fun _ => Reg.noConfusion) fun _ => ?_
  exact ne_ite_of Reg.noConfusion (ne_ite_of Reg.noConfusion Reg.noConfusion)

end Sys2Proof.Machine
end

