-- ==== Sys2Proof/Laws/State.lean ====
section
/-!
SUPPORT. The fields of the state after each shared update: one lemma per field, true by rfl.
-/

namespace Sys2Proof.Machine

/-! ### complete -/

@[simp] theorem complete_params (code : ErrCode) (eq : Bool) (s : State) :
    (complete code eq s).params = s.params := rfl
@[simp] theorem complete_caps (code : ErrCode) (eq : Bool) (s : State) :
    (complete code eq s).caps = s.caps := rfl
@[simp] theorem complete_live (code : ErrCode) (eq : Bool) (s : State) :
    (complete code eq s).live = s.live := rfl
@[simp] theorem complete_pending (code : ErrCode) (eq : Bool) (s : State) :
    (complete code eq s).pending = none := rfl
@[simp] theorem complete_esticky (code : ErrCode) (eq : Bool) (s : State) :
    (complete code eq s).esticky = (s.esticky || decide (code ≠ .ok)) := rfl
@[simp] theorem complete_ovr (code : ErrCode) (eq : Bool) (s : State) :
    (complete code eq s).ovr = s.ovr := rfl
@[simp] theorem complete_vok (code : ErrCode) (eq : Bool) (s : State) :
    (complete code eq s).vok = (decide (code = .ok) && eq) := rfl
@[simp] theorem complete_err (code : ErrCode) (eq : Bool) (s : State) :
    (complete code eq s).err = code := rfl
@[simp] theorem complete_param (code : ErrCode) (eq : Bool) (s : State) :
    (complete code eq s).param = s.param := rfl
@[simp] theorem complete_din (code : ErrCode) (eq : Bool) (s : State) :
    (complete code eq s).din = s.din := rfl
@[simp] theorem complete_key (code : ErrCode) (eq : Bool) (s : State) :
    (complete code eq s).key = s.key := rfl
@[simp] theorem complete_tag (code : ErrCode) (eq : Bool) (s : State) :
    (complete code eq s).tag = s.tag := rfl
@[simp] theorem complete_dout (code : ErrCode) (eq : Bool) (s : State) :
    (complete code eq s).dout = s.dout := rfl
@[simp] theorem complete_staging (code : ErrCode) (eq : Bool) (s : State) :
    (complete code eq s).staging = s.staging := rfl
@[simp] theorem complete_events (code : ErrCode) (eq : Bool) (s : State) :
    (complete code eq s).events = s.events := rfl
@[simp] theorem complete_returned (code : ErrCode) (eq : Bool) (s : State) :
    (complete code eq s).returned = s.returned := rfl
@[simp] theorem complete_unpolled (code : ErrCode) (eq : Bool) (s : State) :
    (complete code eq s).unpolled = s.unpolled := rfl
@[simp] theorem complete_draws (code : ErrCode) (eq : Bool) (s : State) :
    (complete code eq s).draws = s.draws := rfl

/-! ### countAccess -/

@[simp] theorem countAccess_params (s : State) :
    (countAccess s).params = s.params := rfl
@[simp] theorem countAccess_caps (s : State) :
    (countAccess s).caps = s.caps := rfl
@[simp] theorem countAccess_live (s : State) :
    (countAccess s).live = s.live := rfl
@[simp] theorem countAccess_pending (s : State) :
    (countAccess s).pending = s.pending.map fun p => { p with wait := p.wait - 1 } := rfl
@[simp] theorem countAccess_esticky (s : State) :
    (countAccess s).esticky = s.esticky := rfl
@[simp] theorem countAccess_ovr (s : State) :
    (countAccess s).ovr = s.ovr := rfl
@[simp] theorem countAccess_vok (s : State) :
    (countAccess s).vok = s.vok := rfl
@[simp] theorem countAccess_err (s : State) :
    (countAccess s).err = s.err := rfl
@[simp] theorem countAccess_param (s : State) :
    (countAccess s).param = s.param := rfl
@[simp] theorem countAccess_din (s : State) :
    (countAccess s).din = s.din := rfl
@[simp] theorem countAccess_key (s : State) :
    (countAccess s).key = s.key := rfl
@[simp] theorem countAccess_tag (s : State) :
    (countAccess s).tag = s.tag := rfl
@[simp] theorem countAccess_dout (s : State) :
    (countAccess s).dout = s.dout := rfl
@[simp] theorem countAccess_staging (s : State) :
    (countAccess s).staging = s.staging := rfl
@[simp] theorem countAccess_events (s : State) :
    (countAccess s).events = s.events := rfl
@[simp] theorem countAccess_returned (s : State) :
    (countAccess s).returned = s.returned := rfl
@[simp] theorem countAccess_unpolled (s : State) :
    (countAccess s).unpolled = s.unpolled := rfl
@[simp] theorem countAccess_draws (s : State) :
    (countAccess s).draws = s.draws := rfl

/-! ### hostRead -/

@[simp] theorem hostRead_params (off : Nat) (s : State) :
    (hostRead off s).params = s.params := rfl
@[simp] theorem hostRead_caps (off : Nat) (s : State) :
    (hostRead off s).caps = s.caps := rfl
@[simp] theorem hostRead_live (off : Nat) (s : State) :
    (hostRead off s).live = s.live := rfl
@[simp] theorem hostRead_pending (off : Nat) (s : State) :
    (hostRead off s).pending = s.pending := rfl
@[simp] theorem hostRead_esticky (off : Nat) (s : State) :
    (hostRead off s).esticky = s.esticky := rfl
@[simp] theorem hostRead_ovr (off : Nat) (s : State) :
    (hostRead off s).ovr = s.ovr := rfl
@[simp] theorem hostRead_vok (off : Nat) (s : State) :
    (hostRead off s).vok = s.vok := rfl
@[simp] theorem hostRead_err (off : Nat) (s : State) :
    (hostRead off s).err = s.err := rfl
@[simp] theorem hostRead_param (off : Nat) (s : State) :
    (hostRead off s).param = s.param := rfl
@[simp] theorem hostRead_din (off : Nat) (s : State) :
    (hostRead off s).din = s.din := rfl
@[simp] theorem hostRead_key (off : Nat) (s : State) :
    (hostRead off s).key = s.key := rfl
@[simp] theorem hostRead_tag (off : Nat) (s : State) :
    (hostRead off s).tag = s.tag := rfl
@[simp] theorem hostRead_dout (off : Nat) (s : State) :
    (hostRead off s).dout = s.dout := rfl
@[simp] theorem hostRead_staging (off : Nat) (s : State) :
    (hostRead off s).staging = s.staging := rfl
@[simp] theorem hostRead_events (off : Nat) (s : State) :
    (hostRead off s).events = s.events := rfl
@[simp] theorem hostRead_returned (off : Nat) (s : State) :
    (hostRead off s).returned = { off := off, value := readValue s (regAt off), specified := readSpecified s (regAt off) } :: s.returned := rfl
@[simp] theorem hostRead_unpolled (off : Nat) (s : State) :
    (hostRead off s).unpolled = (s.unpolled && (s.busy || decide (regAt off ≠ .status))) := rfl
@[simp] theorem hostRead_draws (off : Nat) (s : State) :
    (hostRead off s).draws = if s.busy then s.draws + 1 else s.draws := rfl

/-! ### acceptCommand -/

@[simp] theorem acceptCommand_params (v : Word) (s : State) :
    (acceptCommand v s).params = s.params := rfl
@[simp] theorem acceptCommand_caps (v : Word) (s : State) :
    (acceptCommand v s).caps = s.caps := rfl
@[simp] theorem acceptCommand_live (v : Word) (s : State) :
    (acceptCommand v s).live = s.live := rfl
@[simp] theorem acceptCommand_pending (v : Word) (s : State) :
    (acceptCommand v s).pending = some { cw := v, wait := Config.latency s.draws } := rfl
@[simp] theorem acceptCommand_esticky (v : Word) (s : State) :
    (acceptCommand v s).esticky = s.esticky := rfl
@[simp] theorem acceptCommand_ovr (v : Word) (s : State) :
    (acceptCommand v s).ovr = s.ovr := rfl
@[simp] theorem acceptCommand_vok (v : Word) (s : State) :
    (acceptCommand v s).vok = s.vok := rfl
@[simp] theorem acceptCommand_err (v : Word) (s : State) :
    (acceptCommand v s).err = s.err := rfl
@[simp] theorem acceptCommand_param (v : Word) (s : State) :
    (acceptCommand v s).param = s.param := rfl
@[simp] theorem acceptCommand_din (v : Word) (s : State) :
    (acceptCommand v s).din = s.din := rfl
@[simp] theorem acceptCommand_key (v : Word) (s : State) :
    (acceptCommand v s).key = s.key := rfl
@[simp] theorem acceptCommand_tag (v : Word) (s : State) :
    (acceptCommand v s).tag = s.tag := rfl
@[simp] theorem acceptCommand_dout (v : Word) (s : State) :
    (acceptCommand v s).dout = s.dout := rfl
@[simp] theorem acceptCommand_staging (v : Word) (s : State) :
    (acceptCommand v s).staging = s.staging := rfl
@[simp] theorem acceptCommand_events (v : Word) (s : State) :
    (acceptCommand v s).events = s.events := rfl
@[simp] theorem acceptCommand_returned (v : Word) (s : State) :
    (acceptCommand v s).returned = s.returned := rfl
@[simp] theorem acceptCommand_unpolled (v : Word) (s : State) :
    (acceptCommand v s).unpolled = s.unpolled := rfl
@[simp] theorem acceptCommand_draws (v : Word) (s : State) :
    (acceptCommand v s).draws = s.draws + 1 := rfl

/-! ### writeStatus -/

@[simp] theorem writeStatus_params (v : Word) (s : State) :
    (writeStatus v s).params = s.params := rfl
@[simp] theorem writeStatus_caps (v : Word) (s : State) :
    (writeStatus v s).caps = s.caps := rfl
@[simp] theorem writeStatus_live (v : Word) (s : State) :
    (writeStatus v s).live = s.live := rfl
@[simp] theorem writeStatus_pending (v : Word) (s : State) :
    (writeStatus v s).pending = s.pending := rfl
@[simp] theorem writeStatus_esticky (v : Word) (s : State) :
    (writeStatus v s).esticky = (s.esticky && !v.getLsbD 1) := rfl
@[simp] theorem writeStatus_ovr (v : Word) (s : State) :
    (writeStatus v s).ovr = (s.ovr && !v.getLsbD 2) := rfl
@[simp] theorem writeStatus_vok (v : Word) (s : State) :
    (writeStatus v s).vok = s.vok := rfl
@[simp] theorem writeStatus_err (v : Word) (s : State) :
    (writeStatus v s).err = s.err := rfl
@[simp] theorem writeStatus_param (v : Word) (s : State) :
    (writeStatus v s).param = s.param := rfl
@[simp] theorem writeStatus_din (v : Word) (s : State) :
    (writeStatus v s).din = s.din := rfl
@[simp] theorem writeStatus_key (v : Word) (s : State) :
    (writeStatus v s).key = s.key := rfl
@[simp] theorem writeStatus_tag (v : Word) (s : State) :
    (writeStatus v s).tag = s.tag := rfl
@[simp] theorem writeStatus_dout (v : Word) (s : State) :
    (writeStatus v s).dout = s.dout := rfl
@[simp] theorem writeStatus_staging (v : Word) (s : State) :
    (writeStatus v s).staging = s.staging := rfl
@[simp] theorem writeStatus_events (v : Word) (s : State) :
    (writeStatus v s).events = s.events := rfl
@[simp] theorem writeStatus_returned (v : Word) (s : State) :
    (writeStatus v s).returned = s.returned := rfl
@[simp] theorem writeStatus_unpolled (v : Word) (s : State) :
    (writeStatus v s).unpolled = s.unpolled := rfl
@[simp] theorem writeStatus_draws (v : Word) (s : State) :
    (writeStatus v s).draws = s.draws := rfl

/-! ### resetEngine -/

@[simp] theorem resetEngine_params (s : State) :
    (resetEngine s).params = s.params := rfl
@[simp] theorem resetEngine_caps (s : State) :
    (resetEngine s).caps = capsOf s.params := rfl
@[simp] theorem resetEngine_live (s : State) :
    (resetEngine s).live = Live.uninit := rfl
@[simp] theorem resetEngine_pending (s : State) :
    (resetEngine s).pending = none := rfl
@[simp] theorem resetEngine_esticky (s : State) :
    (resetEngine s).esticky = false := rfl
@[simp] theorem resetEngine_ovr (s : State) :
    (resetEngine s).ovr = false := rfl
@[simp] theorem resetEngine_vok (s : State) :
    (resetEngine s).vok = false := rfl
@[simp] theorem resetEngine_err (s : State) :
    (resetEngine s).err = .ok := rfl
@[simp] theorem resetEngine_param (s : State) :
    (resetEngine s).param = { i := 16, r := 16, f := 32, h := 64 } := rfl
@[simp] theorem resetEngine_din (s : State) :
    (resetEngine s).din = zeroWords 8 := rfl
@[simp] theorem resetEngine_key (s : State) :
    (resetEngine s).key = zeroWords 16 := rfl
@[simp] theorem resetEngine_tag (s : State) :
    (resetEngine s).tag = zeroWords 16 := rfl
@[simp] theorem resetEngine_dout (s : State) :
    (resetEngine s).dout = zeroWords 16 := rfl
@[simp] theorem resetEngine_staging (s : State) :
    (resetEngine s).staging = Staging.zero := rfl
@[simp] theorem resetEngine_events (s : State) :
    (resetEngine s).events = s.events := rfl
@[simp] theorem resetEngine_returned (s : State) :
    (resetEngine s).returned = s.returned := rfl
@[simp] theorem resetEngine_unpolled (s : State) :
    (resetEngine s).unpolled = s.unpolled := rfl
@[simp] theorem resetEngine_draws (s : State) :
    (resetEngine s).draws = s.draws := rfl

/-! ### withFetchWord -/

@[simp] theorem withFetchWord_params (s : State) (nbits w : Nat) :
    (s.withFetchWord nbits w).params = s.params := rfl
@[simp] theorem withFetchWord_caps (s : State) (nbits w : Nat) :
    (s.withFetchWord nbits w).caps = s.caps := rfl
@[simp] theorem withFetchWord_live (s : State) (nbits w : Nat) :
    (s.withFetchWord nbits w).live = s.live := rfl
@[simp] theorem withFetchWord_pending (s : State) (nbits w : Nat) :
    (s.withFetchWord nbits w).pending = some { cw := BitVec.ofNat 32 (w % 2 ^ nbits), wait := 0 } := rfl
@[simp] theorem withFetchWord_esticky (s : State) (nbits w : Nat) :
    (s.withFetchWord nbits w).esticky = s.esticky := rfl
@[simp] theorem withFetchWord_ovr (s : State) (nbits w : Nat) :
    (s.withFetchWord nbits w).ovr = s.ovr := rfl
@[simp] theorem withFetchWord_vok (s : State) (nbits w : Nat) :
    (s.withFetchWord nbits w).vok = s.vok := rfl
@[simp] theorem withFetchWord_err (s : State) (nbits w : Nat) :
    (s.withFetchWord nbits w).err = s.err := rfl
@[simp] theorem withFetchWord_param (s : State) (nbits w : Nat) :
    (s.withFetchWord nbits w).param = s.param := rfl
@[simp] theorem withFetchWord_din (s : State) (nbits w : Nat) :
    (s.withFetchWord nbits w).din = s.din := rfl
@[simp] theorem withFetchWord_key (s : State) (nbits w : Nat) :
    (s.withFetchWord nbits w).key = s.key := rfl
@[simp] theorem withFetchWord_tag (s : State) (nbits w : Nat) :
    (s.withFetchWord nbits w).tag = s.tag := rfl
@[simp] theorem withFetchWord_dout (s : State) (nbits w : Nat) :
    (s.withFetchWord nbits w).dout = s.dout := rfl
@[simp] theorem withFetchWord_staging (s : State) (nbits w : Nat) :
    (s.withFetchWord nbits w).staging = s.staging := rfl
@[simp] theorem withFetchWord_events (s : State) (nbits w : Nat) :
    (s.withFetchWord nbits w).events = s.events := rfl
@[simp] theorem withFetchWord_returned (s : State) (nbits w : Nat) :
    (s.withFetchWord nbits w).returned = s.returned := rfl
@[simp] theorem withFetchWord_unpolled (s : State) (nbits w : Nat) :
    (s.withFetchWord nbits w).unpolled = true := rfl
@[simp] theorem withFetchWord_draws (s : State) (nbits w : Nat) :
    (s.withFetchWord nbits w).draws = s.draws := rfl

/-! ### withDin -/

@[simp] theorem withDin_params (s : State) (b : List Byte) :
    (s.withDin b).params = s.params := rfl
@[simp] theorem withDin_caps (s : State) (b : List Byte) :
    (s.withDin b).caps = s.caps := rfl
@[simp] theorem withDin_live (s : State) (b : List Byte) :
    (s.withDin b).live = s.live := rfl
@[simp] theorem withDin_pending (s : State) (b : List Byte) :
    (s.withDin b).pending = s.pending := rfl
@[simp] theorem withDin_esticky (s : State) (b : List Byte) :
    (s.withDin b).esticky = s.esticky := rfl
@[simp] theorem withDin_ovr (s : State) (b : List Byte) :
    (s.withDin b).ovr = s.ovr := rfl
@[simp] theorem withDin_vok (s : State) (b : List Byte) :
    (s.withDin b).vok = s.vok := rfl
@[simp] theorem withDin_err (s : State) (b : List Byte) :
    (s.withDin b).err = s.err := rfl
@[simp] theorem withDin_param (s : State) (b : List Byte) :
    (s.withDin b).param = s.param := rfl
@[simp] theorem withDin_din (s : State) (b : List Byte) :
    (s.withDin b).din = packBytes 8 fun j => b.getD j 0 := rfl
@[simp] theorem withDin_key (s : State) (b : List Byte) :
    (s.withDin b).key = s.key := rfl
@[simp] theorem withDin_tag (s : State) (b : List Byte) :
    (s.withDin b).tag = s.tag := rfl
@[simp] theorem withDin_dout (s : State) (b : List Byte) :
    (s.withDin b).dout = s.dout := rfl
@[simp] theorem withDin_staging (s : State) (b : List Byte) :
    (s.withDin b).staging = s.staging := rfl
@[simp] theorem withDin_events (s : State) (b : List Byte) :
    (s.withDin b).events = s.events := rfl
@[simp] theorem withDin_returned (s : State) (b : List Byte) :
    (s.withDin b).returned = s.returned := rfl
@[simp] theorem withDin_unpolled (s : State) (b : List Byte) :
    (s.withDin b).unpolled = s.unpolled := rfl
@[simp] theorem withDin_draws (s : State) (b : List Byte) :
    (s.withDin b).draws = s.draws := rfl

/-! ### withKey -/

@[simp] theorem withKey_params (s : State) (k : List Byte) :
    (s.withKey k).params = s.params := rfl
@[simp] theorem withKey_caps (s : State) (k : List Byte) :
    (s.withKey k).caps = s.caps := rfl
@[simp] theorem withKey_live (s : State) (k : List Byte) :
    (s.withKey k).live = s.live := rfl
@[simp] theorem withKey_pending (s : State) (k : List Byte) :
    (s.withKey k).pending = s.pending := rfl
@[simp] theorem withKey_esticky (s : State) (k : List Byte) :
    (s.withKey k).esticky = s.esticky := rfl
@[simp] theorem withKey_ovr (s : State) (k : List Byte) :
    (s.withKey k).ovr = s.ovr := rfl
@[simp] theorem withKey_vok (s : State) (k : List Byte) :
    (s.withKey k).vok = s.vok := rfl
@[simp] theorem withKey_err (s : State) (k : List Byte) :
    (s.withKey k).err = s.err := rfl
@[simp] theorem withKey_param (s : State) (k : List Byte) :
    (s.withKey k).param = s.param := rfl
@[simp] theorem withKey_din (s : State) (k : List Byte) :
    (s.withKey k).din = s.din := rfl
@[simp] theorem withKey_key (s : State) (k : List Byte) :
    (s.withKey k).key = packBytes 16 fun j => k.getD j 0 := rfl
@[simp] theorem withKey_tag (s : State) (k : List Byte) :
    (s.withKey k).tag = s.tag := rfl
@[simp] theorem withKey_dout (s : State) (k : List Byte) :
    (s.withKey k).dout = s.dout := rfl
@[simp] theorem withKey_staging (s : State) (k : List Byte) :
    (s.withKey k).staging = s.staging := rfl
@[simp] theorem withKey_events (s : State) (k : List Byte) :
    (s.withKey k).events = s.events := rfl
@[simp] theorem withKey_returned (s : State) (k : List Byte) :
    (s.withKey k).returned = s.returned := rfl
@[simp] theorem withKey_unpolled (s : State) (k : List Byte) :
    (s.withKey k).unpolled = s.unpolled := rfl
@[simp] theorem withKey_draws (s : State) (k : List Byte) :
    (s.withKey k).draws = s.draws := rfl

end Sys2Proof.Machine
end

