-- ==== Sys2Proof/Laws/Exec.lean ====
section
/-!
SUPPORT. What a command can do, said once for all nine (spec/60_exceptions.md R201, R202), and what a step can do.
-/

namespace Sys2Proof.Machine

/-- The state `u` a command hands to its completion, from `s`: no command changes the parameters, CAPS, the flags, PARAM or
anything of the outside before it completes. -/
abbrev KeepsControl (s u : State) : Prop :=
  u.params = s.params ∧ u.caps = s.caps ∧ u.esticky = s.esticky ∧ u.ovr = s.ovr ∧ u.param = s.param
  ∧ u.events = s.events ∧ u.returned = s.returned ∧ u.unpolled = s.unpolled ∧ u.draws = s.draws

/-- Every command ends in COMPLETE of a code, on a state that keeps all control state; an error leaves the state as it was but
for KEY (R201, R202). -/
theorem exec_shape (i : Instr) (s : State) :
    ∃ code eq u, exec i s = .next (complete code eq u) ∧ KeepsControl s u
      ∧ (code ≠ .ok → u = s ∨ ∃ keylen bk, i = .macInit keylen bk ∧ u = { s with key := zeroWords 16 })
      ∧ (eq = true → ∃ taglen, i = .verify taglen) := by
  have same : KeepsControl s s := ⟨rfl, rfl, rfl, rfl, rfl, rfl, rfl, rfl, rfl⟩
  have fails (e : ErrCode) : ∃ code eq u, raise e s = .next (complete code eq u) ∧ KeepsControl s u
      ∧ (code ≠ .ok → u = s ∨ ∃ keylen bk, i = .macInit keylen bk ∧ u = { s with key := zeroWords 16 })
      ∧ (eq = true → ∃ taglen, i = .verify taglen) :=
    ⟨e, false, s, rfl, same, fun _ => .inl rfl, by simp⟩
  cases i with
  | nop => exact ⟨.ok, false, s, rfl, same, by simp, by simp⟩
  | init bk =>
    simp only [exec, execInit]
    split
    · split
      · exact ⟨.ok, false, _, rfl, ⟨rfl, rfl, rfl, rfl, rfl, rfl, rfl, rfl, rfl⟩, by simp, by simp⟩
      · exact fails _
    · exact fails _
  | update len =>
    simp only [exec, execUpdate]
    split
    · exact fails _
    · split
      · exact fails _
      · exact ⟨.ok, false, _, rfl, ⟨rfl, rfl, rfl, rfl, rfl, rfl, rfl, rfl, rfl⟩, by simp, by simp⟩
  | final =>
    simp only [exec, execFinal]
    split
    · exact fails _
    · exact ⟨.ok, false, _, rfl, ⟨rfl, rfl, rfl, rfl, rfl, rfl, rfl, rfl, rfl⟩, by simp, by simp⟩
  | macInit keylen bk =>
    have cleared (e : ErrCode) : ∃ code eq u, raise e { s with key := zeroWords 16 } = .next (complete code eq u)
        ∧ KeepsControl s u
        ∧ (code ≠ .ok → u = s ∨ ∃ k b, Instr.macInit keylen bk = .macInit k b ∧ u = { s with key := zeroWords 16 })
        ∧ (eq = true → ∃ taglen, Instr.macInit keylen bk = .verify taglen) :=
      ⟨e, false, _, rfl, same, fun _ => .inr ⟨keylen, bk, rfl, rfl⟩, by simp⟩
    simp only [exec, execMacInit]
    split
    · split
      · split
        · exact ⟨.ok, false, _, rfl, ⟨rfl, rfl, rfl, rfl, rfl, rfl, rfl, rfl, rfl⟩, by simp, by simp⟩
        · exact cleared _
      · exact cleared _
    · exact cleared _
  | verify taglen =>
    simp only [exec, execVerify]
    split
    · exact fails _
    · split
      · exact fails _
      · split
        · exact ⟨.ok, _, s, rfl, same, by simp, fun _ => ⟨taglen, rfl⟩⟩
        · exact fails _
  | ctxSave => exact ⟨.ok, false, _, rfl, ⟨rfl, rfl, rfl, rfl, rfl, rfl, rfl, rfl, rfl⟩, by simp, by simp⟩
  | ctxLoad =>
    simp only [exec, execCtxLoad]
    split
    · exact ⟨.ok, false, _, rfl, ⟨rfl, rfl, rfl, rfl, rfl, rfl, rfl, rfl, rfl⟩, by simp, by simp⟩
    · exact fails _
  | zeroize =>
    simp only [exec, execZeroize]
    split
    · exact ⟨.ok, false, _, rfl, ⟨rfl, rfl, rfl, rfl, rfl, rfl, rfl, rfl, rfl⟩, by simp, by simp⟩
    · exact fails _

/-- The engine's step performs the decoded command or completes an illegal word. -/
theorem engineStep_cases (cw : Word) (s : State) :
    (∃ i, decode s.params.hasZeroize cw = .ok i ∧ engineStep cw s = exec i s)
    ∨ (∃ e, decode s.params.hasZeroize cw = .error e ∧ engineStep cw s = .next (complete .illegalCommand false s)) := by
  cases h : decode s.params.hasZeroize cw with
  | ok i => exact .inl ⟨i, rfl, by simp [engineStep, h]⟩
  | error e => exact .inr ⟨e, rfl, by simp [engineStep, h, raise]⟩

/-- A step is the engine's while a command is pending and it is to move, else the host's. -/
theorem step_cases (s : State) :
    (∃ p, s.pending = some p ∧ (p.wait = 0 ∨ s.events = []) ∧ step s = engineStep p.cw s)
    ∨ (s.pending = none ∧ step s = hostStep s)
    ∨ (∃ p, s.pending = some p ∧ p.wait ≠ 0 ∧ s.events ≠ [] ∧ step s = hostStep s) := by
  cases h : s.pending with
  | none => exact .inr (.inl ⟨rfl, by simp [step, h]⟩)
  | some p =>
    by_cases ht : p.wait = 0 ∨ s.events = []
    · exact .inl ⟨p, rfl, ht, by simp only [step, h, ht, if_true]⟩
    · exact .inr (.inr ⟨p, rfl, fun h0 => ht (.inl h0), fun h0 => ht (.inr h0), by simp only [step, h, ht, if_false]⟩)

/-- The host moves while no command is pending. -/
theorem step_idle (s : State) (h : s.pending = none) : step s = hostStep s := by simp only [step, h]

/-- The host moves while a command is pending and its accesses have not all come. -/
theorem step_busy_host (s : State) (p : Pending) (h : s.pending = some p) (hw : p.wait ≠ 0) (he : s.events ≠ []) :
    step s = hostStep s := by
  have ht : ¬ (p.wait = 0 ∨ s.events = []) := fun h0 => h0.elim hw he
  simp only [step, h, if_neg ht]

/-- The engine moves while a command is pending and the host's accesses have all come. -/
theorem step_engine (s : State) (p : Pending) (h : s.pending = some p) (ht : p.wait = 0 ∨ s.events = []) :
    step s = engineStep p.cw s := by
  simp only [step, h, if_pos ht]

/-- The host's move takes the first event. -/
theorem hostStep_cons (s : State) (e : Event) (rest : List Event) (h : s.events = e :: rest) :
    hostStep s = hostEvent e { s with events := rest } := by simp only [hostStep, h]

/-- An aligned 32-bit access inside the window reaches its offset (R66, R67). -/
theorem windowOffset_ok (p : Config.Params) (off : Nat) (h : off < 0x400) (h4 : off % 4 = 0) :
    windowOffset p (p.base + off) 4 = .ok off := by
  have hb : (p.base + off) % 4 = 0 := by unfold Config.Params.base; omega
  have hw : p.base ≤ p.base + off ∧ p.base + off < p.base + 0x400 := by omega
  simp only [windowOffset, if_pos hw, hb, and_self, if_true, Nat.add_sub_cancel_left]

/-- A read while no command is pending is exact (R66). -/
theorem readValue_idle (s : State) (r : Reg) (h : s.pending = none) : readValue s r = regValue s r := by
  simp [readValue, State.busy, h]

/-- A read of a register R73 names while BUSY = 1 is a draw (R73). -/
theorem readValue_busy_drawn (s : State) (r : Reg) (hb : s.busy = true) (h : drawnWhileBusy r = true) :
    readValue s r = Config.freeRead s.draws := by
  have : r ≠ .status := by rintro rfl; simp [drawnWhileBusy] at h
  simp [readValue, hb, h, this]

/-- A read of any other register but STATUS while BUSY = 1 is exact (R73, R66; log 6). -/
theorem readValue_busy_exact (s : State) (r : Reg) (hb : s.busy = true) (hr : r ≠ .status)
    (h : drawnWhileBusy r = false) : readValue s r = regValue s r := by
  simp [readValue, hb, h, hr]

/-- The bits of a STATUS read while BUSY = 1: BUSY and OVR are exact, the rest a draw (R73). -/
theorem readValue_busy_status (s : State) (hb : s.busy = true) (k : Nat) :
    (readValue s .status).getLsbD k
      = if k = 0 then true else if k = 2 then s.ovr else (Config.freeRead s.draws).getLsbD k := by
  by_cases hk : k < 32
  · have m : ∀ i < 32, (5 : Word).getLsbD i = decide (i = 0 ∨ i = 2) := by decide
    simp only [readValue, hb, if_true, BitVec.getLsbD_or, BitVec.getLsbD_and, BitVec.getLsbD_not, m k hk, hk, decide_true,
      Bool.true_and]
    by_cases h0 : k = 0
    · subst h0; rw [statusWord_bit0, hb]; simp
    by_cases h2 : k = 2
    · subst h2; rw [statusWord_bit2]; simp
    · simp [h0, h2]
  · simp [show k ≠ 0 by omega, show k ≠ 2 by omega, BitVec.getLsbD_of_ge _ k (by omega : 32 ≤ k)]

/-- A write taken while no command is pending. -/
theorem takeUnlessBusy_idle (s taken : State) (h : s.pending = none) : takeUnlessBusy s taken = taken := by
  simp [takeUnlessBusy, State.busy, h]

/-- A write dropped while a command is pending (R71). -/
theorem takeUnlessBusy_busy (s taken : State) (p : Pending) (h : s.pending = some p) :
    takeUnlessBusy s taken = { s with ovr := true } := by
  simp [takeUnlessBusy, State.busy, h]

/-- A write of the host changes neither the live context nor any other register that only the engine writes (R67). -/
theorem writeReg_keeps (r : Reg) (v : Word) (s : State) :
    (writeReg r v s).live = s.live ∧ (writeReg r v s).dout = s.dout ∧ (writeReg r v s).err = s.err
      ∧ (writeReg r v s).vok = s.vok ∧ (writeReg r v s).caps = s.caps ∧ (writeReg r v s).params = s.params
      ∧ (writeReg r v s).events = s.events ∧ (writeReg r v s).returned = s.returned := by
  cases r <;> simp only [writeReg, takeUnlessBusy] <;> first | (split <;> simp) | simp

/-- What one event can do: stop the run, reset the engine, or leave everything that only the engine writes alone. -/
theorem hostEvent_cases (e : Event) (s : State) :
    (∃ f, hostEvent e s = .fault f)
    ∨ (e = .otherHost ∧ hostEvent e s = .refused .severalHosts)
    ∨ (e = .reset ∧ hostEvent e s = .next (resetEngine s))
    ∨ (∃ t, hostEvent e s = .next t ∧ t.live = s.live ∧ t.dout = s.dout ∧ t.err = s.err ∧ t.vok = s.vok
        ∧ t.caps = s.caps ∧ t.params = s.params) := by
  cases e with
  | read addr bytes =>
    simp only [hostEvent]
    split
    · exact .inr (.inr (.inr ⟨_, rfl, rfl, rfl, rfl, rfl, rfl, rfl⟩))
    · exact .inl ⟨_, rfl⟩
  | write addr bytes v =>
    simp only [hostEvent]
    split
    · rename_i off _
      obtain ⟨h1, h2, h3, h4, h5, h6, -, -⟩ := writeReg_keeps (regAt off) v s
      refine .inr (.inr (.inr ⟨_, rfl, ?_⟩))
      split <;> exact ⟨h1, h2, h3, h4, h5, h6⟩
    · exact .inl ⟨_, rfl⟩
  | poll =>
    simp only [hostEvent]
    refine .inr (.inr (.inr ⟨_, rfl, ?_⟩))
    split <;> exact ⟨rfl, rfl, rfl, rfl, rfl, rfl⟩
  | reset => exact .inr (.inr (.inl ⟨rfl, rfl⟩))
  | otherHost => exact .inr (.inl ⟨rfl, rfl⟩)

end Sys2Proof.Machine
end

