-- ==== Sys2Proof/Laws/PerInstr.lean ====
section
/-!
SUPPORT. What holds of the command word of every command, constructor by constructor (spec/30_encoding.md R90, R92).
-/

namespace Sys2Proof.Laws.FixedBits

/-- The command code of R92. -/
def opcodeOf : Instr → BitVec 8
  | .nop => 0x00
  | .init _ => 0x01
  | .update _ => 0x02
  | .final => 0x03
  | .macInit _ _ => 0x04
  | .verify _ => 0x05
  | .ctxSave => 0x06
  | .ctxLoad => 0x07
  | .zeroize => 0x08

/-- The command word has its code in OP, 0 in the reserved fields 15 and 31:19, and 0 in each operand field the command does
not use (R90, R91, R95). -/
def Statement (i : Instr) : Prop :=
  opField (encode i) = opcodeOf i ∧ (encode i).getLsbD 15 = false ∧ encode i >>> 19 = 0
  ∧ ((∀ n, i ≠ .update n) → (∀ n, i ≠ .verify n) → (∀ n bk, i ≠ .macInit n bk) → argField (encode i) = 0)
  ∧ ((∀ bk, i ≠ .init bk) → (∀ n bk, i ≠ .macInit n bk) → bkField (encode i) = 0)

/-- The reserved bits of every word built from three fields are 0 (R90). -/
theorem commandWord_reserved (op : BitVec 8) (arg : BitVec 7) (bk : BitVec 3) :
    (commandWord op arg bk).getLsbD 15 = false ∧ commandWord op arg bk >>> 19 = 0 := by
  constructor
  · simp only [commandWord, BitVec.getLsbD_or, BitVec.getLsbD_setWidth, BitVec.getLsbD_shiftLeft]
    simp
  · apply BitVec.eq_of_getLsbD_eq
    intro i _
    have h0 : op.getLsbD (19 + i) = false := BitVec.getLsbD_of_ge _ _ (by omega)
    have h1 : arg.getLsbD (19 + i - 8) = false := BitVec.getLsbD_of_ge _ _ (by omega)
    have h2 : bk.getLsbD (19 + i - 16) = false := BitVec.getLsbD_of_ge _ _ (by omega)
    simp only [commandWord, BitVec.getLsbD_ushiftRight, BitVec.getLsbD_or, BitVec.getLsbD_setWidth,
      BitVec.getLsbD_shiftLeft, h0, h1, h2]
    simp

theorem nop : Statement .nop :=
  ⟨by simp [encode, opcodeOf], (commandWord_reserved _ _ _).1, (commandWord_reserved _ _ _).2, by simp [encode], by simp [encode]⟩

theorem init (bk : Selector) : Statement (.init bk) :=
  ⟨by simp [encode, opcodeOf], (commandWord_reserved _ _ _).1, (commandWord_reserved _ _ _).2, by simp [encode], by simp [encode]⟩

theorem update (len : BitVec 7) : Statement (.update len) :=
  ⟨by simp [encode, opcodeOf], (commandWord_reserved _ _ _).1, (commandWord_reserved _ _ _).2, by simp [encode], by simp [encode]⟩

theorem final : Statement .final :=
  ⟨by simp [encode, opcodeOf], (commandWord_reserved _ _ _).1, (commandWord_reserved _ _ _).2, by simp [encode], by simp [encode]⟩

theorem macInit (keylen : BitVec 7) (bk : Selector) : Statement (.macInit keylen bk) :=
  ⟨by simp [encode, opcodeOf], (commandWord_reserved _ _ _).1, (commandWord_reserved _ _ _).2, by simp [encode], by simp [encode]⟩

theorem verify (taglen : BitVec 7) : Statement (.verify taglen) :=
  ⟨by simp [encode, opcodeOf], (commandWord_reserved _ _ _).1, (commandWord_reserved _ _ _).2, by simp [encode], by simp [encode]⟩

theorem ctxSave : Statement .ctxSave :=
  ⟨by simp [encode, opcodeOf], (commandWord_reserved _ _ _).1, (commandWord_reserved _ _ _).2, by simp [encode], by simp [encode]⟩

theorem ctxLoad : Statement .ctxLoad :=
  ⟨by simp [encode, opcodeOf], (commandWord_reserved _ _ _).1, (commandWord_reserved _ _ _).2, by simp [encode], by simp [encode]⟩

theorem zeroize : Statement .zeroize :=
  ⟨by simp [encode, opcodeOf], (commandWord_reserved _ _ _).1, (commandWord_reserved _ _ _).2, by simp [encode], by simp [encode]⟩

end Sys2Proof.Laws.FixedBits
end

