-- ==== Sys2Proof/Laws/Work.lean ====
section
/-!
SUPPORT. What each operation of the counting core computes and how many ROUNDs it counts
(spec/70_reset_and_hazards.md R240, spec/41_permutation_core.md R114 to R117).
-/

namespace Sys2Proof.Machine

/-- n counted ROUNDs are ROUNDS(n), and count n (R114). -/
theorem meteredRounds_eq (n : Nat) (x : Metered) :
    meteredRounds n x = { core := rounds n x.core, count := x.count + n } := by
  induction n generalizing x with
  | zero => rfl
  | succ n ih => rw [meteredRounds, ih, meteredRound, rounds_succ, Nat.add_assoc, Nat.add_comm 1 n]

theorem meteredInit_eq (i r : BitVec 8) (h : BitVec 7) :
    meteredInit i r h = { core := coreInit i r h, count := i.toNat } := by
  rw [meteredInit, meteredRounds_eq, Nat.zero_add]; rfl

theorem meteredAbsorb_eq (x : Metered) (blk : Block) (r : BitVec 8) :
    meteredAbsorb x blk r = { core := coreAbsorb x.core blk r, count := x.count + r.toNat } := by
  rw [meteredAbsorb, meteredRounds_eq]; rfl

theorem meteredFinal_eq (x : Metered) (f : BitVec 8) :
    meteredFinal x f = { core := coreFinal x.core f, count := x.count + f.toNat } := by
  rw [meteredFinal, meteredRounds_eq]; rfl

/-- PAD_BLOCK and CORE_FINAL cost R and F rounds (R240). -/
theorem meteredFinish_eq (c : Live) :
    meteredFinish c = { core := (finalized c).s, count := c.lp.r.toNat + c.lp.f.toNat } := by
  rw [meteredFinish, meteredAbsorb_eq, meteredFinal_eq, Nat.zero_add]; rfl

/-- BUF_APPEND on the counting core: R rounds for the byte that fills the buffer, none for another (R240). -/
theorem meteredAppend_eq (c : MeteredLive) (b : Byte) :
    meteredAppend c b =
      { live := bufAppend c.live b
        count := c.count + if c.live.n.val + 1 < 32 then 0 else c.live.lp.r.toNat } := by
  unfold meteredAppend bufAppend
  split
  · rfl
  · simp only [meteredAbsorb_eq]

/-- Appending a string of bytes on the counting core: R rounds for each time the buffer fills (R155, R240). -/
theorem meteredAppendAll_eq (bs : List Byte) (c : MeteredLive) :
    bs.foldl meteredAppend c =
      { live := bufAppendAll c.live bs
        count := c.count + (c.live.n.val + bs.length) / 32 * c.live.lp.r.toNat } := by
  induction bs generalizing c with
  | nil => simp [Nat.div_eq_of_lt c.live.n.isLt]
  | cons b bs ih =>
    rw [List.foldl_cons, ih, meteredAppend_eq]
    by_cases h : c.live.n.val + 1 < 32
    · simp only [h, if_true, bufAppend_short _ _ h, bufAppendAll_cons, List.length_cons]
      have hd : (c.live.n.val + 1 + bs.length) / 32 = (c.live.n.val + (bs.length + 1)) / 32 := by omega
      rw [hd, Nat.add_zero c.count]
    · have h31 : c.live.n.val = 31 := by omega
      simp only [h, if_false, bufAppend_full _ _ h31, bufAppendAll_cons, List.length_cons]
      have hd : (c.live.n.val + (bs.length + 1)) / 32 = 1 + bs.length / 32 := by omega
      rw [hd, Nat.add_mul, Nat.one_mul, Nat.add_assoc]
      simp

end Sys2Proof.Machine
end

