-- ==== Sys2Proof/Machine/HostForms.lean ====
section
/-!
DEFINITION. The host-level forms of spec/30_encoding.md R100, as the events they expand into.
-/

namespace Sys2Proof.Machine.HostForm

/-- `WR reg, v`. -/
def wr (p : Config.Params) (r : Reg) (v : Word) : List Event := [.write (p.base + regOffset r) 4 v]

/-- `RD reg`. -/
def rd (p : Config.Params) (r : Reg) : List Event := [.read (p.base + regOffset r) 4]

/-- `DO cmd`: write CMD, then POLL. -/
def doCommand (p : Config.Params) (i : Instr) : List Event := wr p .cmd (encode i) ++ [.poll]

/-- `LOADDIN b`: the bytes padded with zero bytes to 32, word by word. -/
def loadDin (p : Config.Params) (b : List Byte) : List Event :=
  (List.finRange 8).flatMap fun k => wr p (.din k) ((packBytes 8 fun j => b.getD j 0)[k])

/-- `LOADKEY k`: 64 bytes, word by word. -/
def loadKey (p : Config.Params) (k : List Byte) : List Event :=
  (List.finRange 16).flatMap fun j => wr p (.key j) ((packBytes 16 fun i => k.getD i 0)[j])

/-- `LOADTAG t`: the bytes padded with zero bytes to 64, word by word. -/
def loadTag (p : Config.Params) (t : List Byte) : List Event :=
  (List.finRange 16).flatMap fun j => wr p (.tag j) ((packBytes 16 fun i => t.getD i 0)[j])

/-- A message cut into 32-byte pieces with a shorter last piece, none if it is empty; `fuel` at least its length. -/
def pieces : Nat → List Byte → List (List Byte)
  | 0, _ => []
  | _ + 1, [] => []
  | fuel + 1, b :: bs => (b :: bs).take 32 :: pieces fuel ((b :: bs).drop 32)

/-- `HASHMSG m`. -/
def hashMsg (p : Config.Params) (m : List Byte) : List Event :=
  (pieces m.length m).flatMap fun c => loadDin p c ++ doCommand p (.update (BitVec.ofNat 7 c.length))

end Sys2Proof.Machine.HostForm
end

