-- ==== Sys2Proof/Tests/Slice0.lean ====
section
/-!
SUPPORT. Tests against the vectors of spec/95_test_vectors.md and hand calculation from the rules, and one witness for the
hypotheses of every statement that has some.
-/

namespace Sys2Proof.Tests

open Sys2Proof.Machine

/-! ## Well-formedness and decoding -/

/-- R95: a LEN above 32, a TAGLEN above 64 and ZEROIZE without its capability are refused, one value below each is not. -/
theorem test_wellFormed :
    (Instr.update 33).wellFormed true = false ∧ (Instr.update 32).wellFormed true = true
    ∧ (Instr.verify 65).wellFormed true = false ∧ (Instr.verify 64).wellFormed true = true
    ∧ Instr.zeroize.wellFormed false = false ∧ Instr.zeroize.wellFormed true = true := by decide

/-- A word from its bits 31:19, BK, bit 15, ARG and OP, as R90 draws them. -/
def bits (high : BitVec 13) (bk : BitVec 3) (b15 : BitVec 1) (arg : BitVec 7) (op : BitVec 8) : Word :=
  high ++ bk ++ b15 ++ arg ++ op

/-- Every command, its word written out bit by bit from R90 to R94. -/
theorem test_decode_bits :
    decode true (bits 0 0b000 0 0b0000000 0b00000000) = .ok .nop
    ∧ decode true (bits 0 0b010 0 0b0000000 0b00000001) = .ok (.init (.named .sse2))
    ∧ decode true (bits 0 0b000 0 0b0011111 0b00000010) = .ok (.update 31)
    ∧ decode true (bits 0 0b000 0 0b0000000 0b00000011) = .ok .final
    ∧ decode true (bits 0 0b011 0 0b1000000 0b00000100) = .ok (.macInit 64 (.named .avx2))
    ∧ decode true (bits 0 0b000 0 0b1000000 0b00000101) = .ok (.verify 64)
    ∧ decode true (bits 0 0b000 0 0b0000000 0b00000110) = .ok .ctxSave
    ∧ decode true (bits 0 0b000 0 0b0000000 0b00000111) = .ok .ctxLoad
    ∧ decode true (bits 0 0b000 0 0b0000000 0b00001000) = .ok .zeroize := by decide

/-- Every backend selector (R94), and the words V-D5, V-D7 to V-D9, V-D13 to V-D16 that are illegal. -/
theorem test_decode_selectors_and_illegal :
    ([0, 1, 2, 3, 4, 5].map fun bk => decode true (bits 0 bk 0 0 1))
      = [.ok (.init .auto), .ok (.init (.named .soft)), .ok (.init (.named .sse2)), .ok (.init (.named .avx2)),
         .ok (.init (.named .avx512)), .ok (.init (.named .neon))]
    ∧ ([0x00060001, 0x00070001, 0x00002102, 0x00008002, 0x00010002, 0x00004105, 0x80000003, 0x00000106, 0x00000009,
        0x000000FF, 0x00080000].all fun cw => match decode true cw with | .ok _ => false | .error _ => true) = true := by decide

/-- The table's own words (spec/opcode_table.json) come back from the decoder and are what `step` performs next. -/
theorem test_decodeTableWord :
    ([0, 1, 2, 3, 4, 5, 6, 7, 8].map fun w => decodeTableWord 32 w)
      = [some .nop, some (.init .auto), some (.update 0), some .final, some (.macInit 0 .auto), some (.verify 0),
         some .ctxSave, some .ctxLoad, some .zeroize]
    ∧ (State.reset.withFetchWord 32 6).pending = some { cw := 6, wait := 0 } := by decide

/-! ## The permutation core -/

/-- A state from a list of words, zero past its end. -/
def stateOf (ws : List Word) : CoreState := Vector.ofFn fun i => ws.getD i.val 0

/-- V-R2: SUBROUND(7, 8, 2) on e0, then the full ROUND. -/
theorem test_round_e0 :
    subround 7 8 2 (stateOf [1])
      = stateOf [1, 0, 0, 0, 0, 0, 0, 0, 0x80, 0, 0, 0, 0, 0, 0, 0, 0, 0, 1]
    ∧ cubeRound (stateOf [1])
      = stateOf [1, 0, 1, 0, 0x800, 0, 0, 0, 0x80, 0, 0, 0, 0x40000, 0, 0, 0, 0, 1, 0, 1, 0, 0, 0, 0, 0, 0x80] := by
  decide +kernel

/-- V-R5 and V-R6: the carry out of the add is lost; the rotation wraps. -/
theorem test_round_carry_and_rotation :
    (cubeRound (stateOf [0xFFFFFFFF, 0, 0, 0, 0, 0, 0, 0, 0, 0, 0, 0, 0, 0, 0, 0, 1])).toList
      = [0, 0, 0, 0, 0, 0, 0, 0, 0xFFFFFFFF, 0, 0, 0, 0xFFFFFFFF, 0, 0, 0] ++ [0, 0, 0, 0, 0, 0, 0, 0, 0, 0xFFFFFFFF, 0, 0, 0, 0, 0, 0]
    ∧ (subround 7 8 2 (stateOf [0, 0, 0, 0, 0, 0, 0, 0, 0x80000000])).toList
      = [0x40, 0, 0, 0, 0, 0, 0, 0, 0x80000000, 0, 0, 0, 0, 0, 0, 0] ++ [0, 0, 0, 0, 0, 0, 0, 0, 0, 0, 0x80000000, 0, 0, 0, 0, 0] := by
  decide +kernel

/-- V-R3: ROUND on S[i] = i, its first and last words. -/
theorem test_round_iota :
    let s := cubeRound (Vector.ofFn fun i => BitVec.ofNat 32 i.val)
    s[0] = 0x0030c424 ∧ s[1] = 0x0034d4a8 ∧ s[8] = 0x00114044 ∧ s[15] = 0x000d33d8 ∧ s[16] = 0x000004a8
    ∧ s[17] = 0x00000424 ∧ s[24] = 0x000000c8 ∧ s[31] = 0x00000354 := by decide +kernel

/-- V-Z3: one round each, H = 8: the digest of the empty message. -/
theorem test_hash_one_round_each :
    hashFunction { i := 1, r := 1, f := 1, h := 8 } [] = [0xb8, 0xc9, 0x62, 0x32, 0x48, 0x84, 0x88, 0x0c] := by decide +kernel

/-- V-Z4: zero rounds, H = 8, 32 bytes of 0x01. -/
theorem test_hash_zero_rounds :
    hashFunction { i := 0, r := 0, f := 0, h := 8 } (List.replicate 32 1)
      = [0x89, 0x01, 0x01, 0x01, 0x21, 0x01, 0x01, 0x01] := by decide +kernel

/-! ## The commands -/

/-- The state a command ends in; the reset state where it does not go on. -/
def after : Result → State
  | .next s => s
  | .fault _ => State.reset
  | .refused _ => State.reset

/-- The reset state with the parameters I = R = F = 0 and H in PARAM. -/
def zeroRounds (h : BitVec 7) : State := { State.reset with param := { i := 0, r := 0, f := 0, h := h } }

/-- An object of zero rounds in ABSORB, as INIT soft leaves it. -/
def hashing (h : BitVec 7) : State := after (exec (.init (.named .soft)) (zeroRounds h))

/-- An object of zero rounds keyed by MAC_INIT 64, soft with an all-zero key. -/
def keyed (h : BitVec 7) : State := after (exec (.macInit 64 (.named .soft)) (zeroRounds h))

/-- A context of V-C1 but for S: "abc" held, H = 32, Soft. -/
def heldAbc : Live :=
  { Live.uninit with
    buf := ((zeroBlock.set 0 0x61).set 1 0x62).set 2 0x63, n := 3, phase := .absorb, bk := some .soft
    lp := { i := 16, r := 16, f := 32, h := 32 } }

/-- V-C5: NOP clears ERR and not ESTICKY. -/
theorem test_nop :
    let s := after (exec .nop { State.reset with err := .useAfterFinalize, esticky := true })
    s.err = .ok ∧ s.esticky = true := by decide

/-- V-I0 (with R = 0): no round is applied; STATUS is ABSORB with BK = 1. -/
theorem test_init :
    (hashing 32).live.s = stateOf [0x20, 0x20, 0] ∧ statusWord (hashing 32) = 0x00000110 := by decide +kernel

/-- V-E5, V-E6, V-E8: INVALID_PARAMETER for H = 0 and H = 65; UNAVAILABLE_BACKEND. -/
theorem test_init_errors :
    (after (exec (.init (.named .soft)) (zeroRounds 0))).err = .invalidParameter
    ∧ (after (exec (.init (.named .soft)) (zeroRounds 65))).err = .invalidParameter
    ∧ (after (exec (.init (.named .avx512)) { State.reset with caps := 0x00000007 })).err = .unavailableBackend := by decide

/-- DIN holding bytes `f 0` to `f 31`. -/
def dinOf (f : Nat → Byte) : Vector Word 8 := packBytes 8 f

/-- V-U4: UPDATE 5 with bytes 00 to 04, then UPDATE 30 with bytes 05 to 22: N = 3 and BUF = 20 21 22. -/
theorem test_update_across_a_block :
    let s := after (exec (.update 5) { hashing 32 with din := dinOf (BitVec.ofNat 8 ·) })
    let t := after (exec (.update 30) { s with din := dinOf fun j => BitVec.ofNat 8 (j + 5) })
    s.live.n = 5 ∧ t.live.n = 3
    ∧ t.live.buf.toList = [0x20, 0x21, 0x22] ++ List.replicate 29 0 := by decide +kernel

/-- V-E10, V-E2's phase alone: UPDATE in DONE and in UNINIT. -/
theorem test_update_phase :
    (after (exec (.update 1) { State.reset with live := { Live.uninit with phase := .done } })).err = .useAfterFinalize
    ∧ (after (exec (.update 1) State.reset)).err = .notInitialized := by decide

/-- V-Z1: zero rounds, H = 4, the empty message: the digest is 84 00 00 00; STATUS is DONE. -/
theorem test_final :
    let s := after (exec .final (hashing 4))
    s.dout[0] = 0x00000084 ∧ s.dout[1] = 0 ∧ statusWord s = 0x00000120 := by decide +kernel

/-- V-Z2: zero rounds, H = 64: c0000000 20000000, then zero bytes. -/
theorem test_final_widest :
    (after (exec .final (hashing 64))).dout.toList = [0xc0, 0x20] ++ List.replicate 14 0 := by decide +kernel

/-- V-M1's STATUS, and V-M7: KEY holds zeros afterwards. -/
theorem test_macInit :
    let s := after (exec (.macInit 64 (.named .soft)) { zeroRounds 16 with key := Vector.replicate 16 0x0A0A0A0A })
    statusWord s = 0x00000150 ∧ s.key = zeroWords 16 := by decide +kernel

/-- V-E7 and V-E3: INVALID_KEY_LENGTH with KEY cleared; an illegal H comes first. -/
theorem test_macInit_errors :
    let s := after (exec (.macInit 32 (.named .soft)) { zeroRounds 32 with key := Vector.replicate 16 0x0A0A0A0A })
    s.err = .invalidKeyLength ∧ s.key = zeroWords 16 ∧ s.live = Live.uninit
    ∧ (after (exec (.macInit 0 (.named .avx512)) (zeroRounds 0))).err = .invalidParameter := by decide

/-- R172 with zero rounds and H = 4, the zero key: T is 84 00 00 00 (by hand, as V-Z1); V-M3's and V-M4's VOK. -/
theorem test_verify :
    (after (exec (.verify 4) { keyed 4 with tag := (zeroWords 16).set 0 0x84 })).vok = true
    ∧ (after (exec (.verify 4) { keyed 4 with tag := (zeroWords 16).set 0 0x85 })).vok = false
    ∧ (after (exec (.verify 4) { keyed 4 with tag := (zeroWords 16).set 0 0x85 })).err = .ok := by decide +kernel

/-- V-M6: a TAGLEN that is not H never verifies; V-E12: NOT_MAC. -/
theorem test_verify_length_and_mac :
    (after (exec (.verify 3) { keyed 4 with tag := (zeroWords 16).set 0 0x84 })).vok = false
    ∧ (after (exec (.verify 32) { State.reset with live := heldAbc })).err = .notMac := by decide +kernel

/-- V-C1: CB, CM and CP after CTX_SAVE. -/
theorem test_ctxSave :
    let g := (after (exec .ctxSave { State.reset with live := heldAbc })).staging
    g.cb.toList = [0x00636261, 0, 0, 0, 0, 0, 0, 0] ∧ g.cm = 0x00030110 ∧ g.cp = 0x20201010 := by decide +kernel

/-- V-C2 and V-C3: the code CTX_LOAD gives for each staging context (CM, CP), CAPS = Soft only. -/
theorem test_ctxLoad_checks :
    ([(0x00030110, 0x20201010), (0x00030111, 0x20201010), (0x00030130, 0x20201010), (0x00030010, 0x20201010),
      (0x00030610, 0x20201010), (0x00030120, 0x20201010), (0x00030110, 0xA0201010), (0x00030110, 0x00201010),
      (0x00030110, 0x41201010), (0x00030510, 0x20201010), (0, 0xFFFFFFFF), (0x40, 0), (0x100, 0), (0x10000, 0)].map
        fun (cm, cp) => (after (exec .ctxLoad { State.reset with staging := { Staging.zero with cm := cm, cp := cp } })).err)
      = [.ok, .badContext, .badContext, .badContext, .badContext, .badContext, .badContext, .badContext, .badContext,
         .unavailableBackend, .ok, .badContext, .badContext, .badContext] := by decide +kernel

/-- V-C2, its last row: bytes of CB at and above N are ignored. -/
theorem test_ctxLoad_buffer :
    let cb := ((zeroWords 8).set 0 0xFF636261).set 7 0x12345678
    let s := after (exec .ctxLoad
      { State.reset with staging := { Staging.zero with cb := cb, cm := 0x00030110, cp := 0x20201010 } })
    s.live = heldAbc := by decide +kernel

/-- V-C4: ZEROIZE clears the context and keeps PARAM; without the capability it is ILLEGAL_COMMAND. -/
theorem test_zeroize :
    let s := { State.reset with live := heldAbc, param := { i := 16, r := 16, f := 32, h := 32 }, key := Vector.replicate 16 1 }
    let t := after (exec .zeroize s)
    t.live = Live.uninit ∧ t.key = zeroWords 16 ∧ paramWord t.param = 0x20201010 ∧ statusWord t = 0
    ∧ (after (exec .zeroize { s with params := { s.params with hasZeroize := false } })).err = .illegalCommand := by
  decide +kernel

/-! ## The host's side -/

/-- V-E15: a write to PARAM while BUSY = 1 is dropped and sets OVR; a write of 4 to STATUS clears OVR even then. -/
theorem test_dropped_write :
    let s := hostWrite 0x010 0x20201010 { State.reset with pending := some { cw := 1, wait := 3 } }
    paramWord s.param = 0x40201010 ∧ s.ovr = true ∧ s.err = .ok ∧ (hostWrite 0x008 4 s).ovr = false := by decide

/-- V-E16: an 8-bit read of BASE + 0x100 and a 32-bit write to BASE + 0x042 are bus errors. -/
theorem test_bus_errors :
    windowOffset { Config.resetParams with baseKib := 3 } (3072 + 0x100) 1 = .error .busError
    ∧ windowOffset { Config.resetParams with baseKib := 3 } (3072 + 0x042) 4 = .error .busError := ⟨by rfl, by rfl⟩

/-- V-E17, R33, R52: a reserved offset reads 0; ID, CAPS (Soft and bit 8) and PARAM after reset. -/
theorem test_reset_registers :
    regValue State.reset (regAt 0x018) = 0 ∧ regValue State.reset .id = 0x43554248
    ∧ regValue State.reset .caps = 0x00000101 ∧ regValue State.reset .param = 0x40201010
    ∧ regValue State.reset .status = 0 := by decide +kernel

/-- R200: the number ERR reads for each code, in the table's order. -/
theorem test_err_codes :
    ([ErrCode.ok, .illegalCommand, .invalidParameter, .unavailableBackend, .invalidKeyLength, .useAfterFinalize,
      .notInitialized, .notMac, .badContext].map fun e => regValue { State.reset with err := e } .err)
      = [0, 1, 2, 3, 4, 5, 6, 7, 8] := by decide

/-- R61: the first and the last register of KEY, TAG, CS and CB. -/
theorem test_register_map :
    regAt 0x080 = .key 0 ∧ regAt 0x0BC = .key 15 ∧ regAt 0x0C0 = .tag 0 ∧ regAt 0x0FC = .tag 15
    ∧ regAt 0x200 = .cs 0 ∧ regAt 0x27C = .cs 31 ∧ regAt 0x280 = .cb 0 ∧ regAt 0x29C = .cb 7 := by decide

/-- R34: CAPS of an X86_64 host with every feature, and of an AARCH64 host with its own. -/
theorem test_caps :
    capsOf { Config.resetParams with arch := .x86_64, feat := 0b11111, hasZeroize := false } = 0x0000000F
    ∧ capsOf { Config.resetParams with arch := .aarch64, feat := 0b10000 } = 0x00000111 := by decide +kernel

/-! ## Work -/

/-- R240 by hand, R = 2 and F = 3, N = 3: UPDATE 28 applies no ROUND, UPDATE 29 applies R, FINAL R + F, VERIFY of no MAC object
none; INIT with I = 3 applies 3. -/
theorem test_rounds_counted :
    let s := { State.reset with live := { heldAbc with lp := { i := 7, r := 2, f := 3, h := 8 } } }
    (meteredExec (.update 28) s).rounds = 0 ∧ (meteredExec (.update 29) s).rounds = 2 ∧ (meteredExec .final s).rounds = 5
    ∧ (meteredExec (.verify 8) s).rounds = 0
    ∧ (meteredExec (.init .auto) { State.reset with param := { i := 3, r := 2, f := 1, h := 8 } }).rounds = 3 := by
  decide +kernel

/-! ## The end of a host program -/

/-- The reset state with a command pending and the events `es` to come. -/
def waiting (cw : Word) (wait : Nat) (es : List Event) : State :=
  { State.reset with pending := some { cw := cw, wait := wait }, unpolled := true, events := es }

/-- The reset state with the events `es` to come. -/
def idle (es : List Event) : State := { State.reset with events := es }

/-- R243: with its last access made and its command completed, a program has not ended before it has polled; a STATUS read that
returned BUSY = 1 does not end the wait, one that returned BUSY = 0 does, a read of ERR does not. -/
theorem test_ended :
    Ended State.reset ∧ ¬ Ended { State.reset with unpolled := true } ∧ ¬ Ended (hostRead 0x008 (waiting 0 3 []))
    ∧ ¬ Ended (hostRead 0x00C { State.reset with unpolled := true })
    ∧ Ended (hostRead 0x008 { State.reset with unpolled := true }) := by decide +kernel

/-- R235, R243: of the 104 registers R61 lists, R235 marks ERR, DIN (8), TAG (16), DOUT (16), CS (32), CB (8), CM and CP until
the poll; of the reads neither one made while BUSY = 1 counts nor one of a marked register. -/
theorem test_observation :
    (observation State.reset).1.length = 104
    ∧ (observation { State.reset with unpolled := true }).1.length = 104 - (1 + 8 + 16 + 16 + 32 + 8 + 1 + 1)
    ∧ (observation (hostRead 0x00C (hostRead 0x010 { State.reset with unpolled := true }))).2
      = [{ off := 0x010, value := 0x40201010, specified := true }]
    ∧ observedReads (hostRead 0x000 (waiting 0 3 [])) = []
    ∧ observedValue { State.reset with unpolled := true, esticky := true, ovr := true } .status = some 4
    ∧ observedValue { State.reset with unpolled := true } (.dout 0) = none
    ∧ observedValue { State.reset with unpolled := false } (.dout 0) = some 0 := by decide +kernel

/-! ## Witnesses: the hypotheses of each statement are met -/

theorem witness_DecodeOfEncodeIsIdentity :
    (Instr.update 32).wellFormed false = true ∧ (Instr.verify 64).wellFormed false = true
    ∧ (Instr.macInit 127 (.named .neon)).wellFormed false = true ∧ Instr.zeroize.wellFormed true = true := by decide

theorem witness_EncodeOfDecodeIsIdentity :
    decode false 0x00047F04 = .ok (.macInit 127 (.named .avx512)) ∧ decode true 0x00000008 = .ok .zeroize := by decide

theorem witness_AtMostOneRowSelects :
    ∃ r ∈ opcodeRows, ∃ q ∈ opcodeRows, r.selects 0x00002002 = true ∧ q.selects 0x00002002 = true := by decide

theorem witness_IllegalWordChangesOnlyFlags :
    (waiting 9 0 [.poll]).pending = some { cw := 9, wait := 0 } ∧ IllegalWord true 9
    ∧ (waiting 0x00002102 7 []).events = [] ∧ IllegalWord true 0x00002102 := by decide

theorem witness_StepRunsDecodedCommand :
    (waiting 3 0 [.poll]).pending = some { cw := 3, wait := 0 } ∧ decode State.reset.params.hasZeroize 3 = .ok .final
    ∧ (waiting 3 7 []).events = [] := by decide

theorem witness_EngineStepAlwaysCompletes :
    (waiting 3 0 [.poll]).pending = some { cw := 3, wait := 0 } ∧ (waiting 3 7 []).events = [] := by decide

theorem witness_PollingEnds :
    (waiting 3 7 [.poll]).pending = some { cw := 3, wait := 7 } ∧ (waiting 3 7 [.poll]).events = [.poll] := by decide

/-- FINAL after reset raises NOT_INITIALIZED; MAC_INIT 0 raises INVALID_KEY_LENGTH; NOP raises nothing. -/
theorem witness_ErrorsArePrecise :
    (∃ t, engineStep 3 State.reset = .next t ∧ t.err = .notInitialized)
    ∧ (∃ t, engineStep 4 State.reset = .next t ∧ t.err = .invalidKeyLength)
    ∧ decode true 4 = .ok (.macInit 0 .auto)
    ∧ (∃ t, engineStep 0 State.reset = .next t ∧ t.err = .ok) :=
  ⟨⟨_, rfl, rfl⟩, ⟨_, rfl, rfl⟩, by decide, ⟨_, rfl, rfl⟩⟩

theorem witness_ResetAbandonsPendingCommand :
    (waiting 3 7 [.reset]).events = [.reset] ∧ (waiting 3 7 [.reset]).pending = some { cw := 3, wait := 7 }
    ∧ (idle [.reset]).pending = none := by decide

/-- A state no run from reset need reach: an object in ABSORB that meets the invariant, NOP pending. -/
theorem witness_StepKeepsInvariant :
    ({ waiting 0 0 [] with live := heldAbc } : State).Inv
    ∧ ∃ t, step { waiting 0 0 [] with live := heldAbc } = .next t := ⟨by decide +kernel, ⟨_, rfl⟩⟩

theorem witness_CapsChangesOnlyAtReset :
    (∃ t, step { idle [.reset] with caps := 0 } = .next t ∧ t.caps = capsOf State.reset.params)
    ∧ (∃ t, step { waiting 0 0 [] with caps := 0 } = .next t ∧ t.caps = 0) := ⟨⟨_, rfl, rfl⟩, ⟨_, rfl, rfl⟩⟩

theorem witness_RegisterMapIsOneToOne :
    (regAt 0x3FC = .reserved) ∧ regAt 0x000 ≠ .reserved ∧ regAt 0x2A4 ≠ .reserved := by decide

/-- The first and the last offset of each reserved range are met by one clause each, and their neighbours by none. -/
theorem witness_ReservedOffsetsReadZero :
    ([0x018, 0x03C, 0x060, 0x07C, 0x140, 0x1FC, 0x2A8, 0x3FC].all fun off => decide (off % 4 = 0) && decide (regAt off = .reserved)) = true
    ∧ ([0x014, 0x040, 0x05C, 0x080, 0x13C, 0x200, 0x2A4].all fun off => decide (regAt off ≠ .reserved)) = true := by decide

theorem witness_IdleReadReturnsRegister :
    (idle [.read 0x13C 4]).pending = none ∧ (idle [.read 0x13C 4]).events = [.read (State.reset.params.base + 0x13C) 4] := by
  decide

/-- One read for each clause: ID, CAPS, PARAM, STATUS; a register of each kind R73 names; KEY, CMD and a reserved offset. -/
theorem witness_BusyReadsExactRegisters :
    (waiting 3 1 [.read 0 4]).pending = some { cw := 3, wait := 1 }
    ∧ (waiting 3 1 [.read 0 4]).events = [.read (State.reset.params.base + 0) 4]
    ∧ regAt 0x000 = .id ∧ regAt 0x004 = .caps ∧ regAt 0x010 = .param ∧ regAt 0x008 = .status
    ∧ regAt 0x00C = .err ∧ regAt 0x05C = .din 7 ∧ regAt 0x0C0 = .tag 0 ∧ regAt 0x13C = .dout 15 ∧ regAt 0x27C = .cs 31
    ∧ regAt 0x280 = .cb 0 ∧ regAt 0x2A0 = .cm ∧ regAt 0x2A4 = .cp
    ∧ regAt 0x0BC = .key 15 ∧ regAt 0x014 = .cmd ∧ regAt 0x018 = .reserved := by decide

/-- One write for each clause of the match. -/
theorem witness_IdleWriteReadsBack :
    ([Reg.din 7, .key 15, .tag 0, .cs 31, .cb 0, .cm, .cp, .param, .cmd, .status, .id, .caps, .err, .dout 3, .reserved].all fun r =>
      decide ((idle [.write (State.reset.params.base + regOffset r) 4 0xFFFFFFFF]).pending = none)) = true := by decide

theorem witness_BusyWritesAreDropped :
    (waiting 3 1 [.write 0x010 4 9]).pending = some { cw := 3, wait := 1 }
    ∧ (waiting 3 1 [.write 0x010 4 9]).events = [.write (State.reset.params.base + regOffset .param) 4 9]
    ∧ (waiting 3 1 [.write 0x008 4 6]).events = [.write (State.reset.params.base + regOffset .status) 4 6]
    ∧ (waiting 3 1 [.write 0x138 4 6]).events = [.write (State.reset.params.base + regOffset (.dout 14)) 4 6] := by decide

theorem witness_OperandsConstantWhilePending :
    (waiting 3 1 [.write 0x010 4 9]).pending = some { cw := 3, wait := 1 }
    ∧ (∃ t, hostStep (waiting 3 1 [.write 0x010 4 9]) = .next t)
    ∧ ∀ rest, (waiting 3 1 [.write 0x010 4 9]).events ≠ .reset :: rest := ⟨rfl, ⟨_, rfl⟩, by simp [waiting]⟩

theorem witness_CommandWriteIsAccepted :
    (idle [.write 0x014 4 3]).pending = none
    ∧ (idle [.write 0x014 4 3]).events = [.write (State.reset.params.base + 0x014) 4 3] := by decide

/-- A narrow and a misaligned access inside the window; one just below and one just above it. -/
theorem witness_BadAccessesFault :
    (idle [.read 0x100 1]).events = [.read 0x100 1] ∧ State.reset.params.base ≤ 0x100 ∧ 0x100 < State.reset.params.base + 0x400
    ∧ (0x042 % 4 ≠ 0) ∧ State.reset.params.base + 0x400 ≤ 0x400
    ∧ 0x3FC < ({ State.reset.params with baseKib := 1 } : Config.Params).base := by decide

theorem witness_SecondHostIsRefused :
    (idle [.otherHost]).events = [.otherHost] ∧ (idle [.otherHost]).pending = none
    ∧ (waiting 3 1 [.otherHost]).pending = some { cw := 3, wait := 1 } := by decide

theorem witness_HostNeverTouchesContext :
    ∃ t, hostStep (idle [.write 0x010 4 9]) = .next t ∧ (idle [.write 0x010 4 9]).events ≠ [.reset] :=
  ⟨_, rfl, by decide⟩

/-- Two states with different keys, FINAL pending; the same with MAC_INIT 64 pending and a read of the host to come first. -/
theorem witness_KeyCannotBeReadBack :
    SameButKey (waiting 3 0 []) { waiting 3 0 [] with key := Vector.replicate 16 1 }
    ∧ (waiting 3 0 []).key ≠ Vector.replicate 16 1 ∧ decode State.reset.params.hasZeroize 3 = .ok .final
    ∧ SameButKey (waiting 0x4004 2 [.read 0x080 4]) { waiting 0x4004 2 [.read 0x080 4] with key := Vector.replicate 16 1 }
    ∧ (waiting 0x4004 2 [.read 0x080 4]).pending = some { cw := 0x4004, wait := 2 }
    ∧ (waiting 0x4004 2 [.read 0x080 4]).events ≠ [] :=
  ⟨rfl, by decide, by decide, rfl, rfl, by decide⟩

theorem witness_OutputBytes :
    (63 : Nat) < (64 : BitVec 7).toNat ∧ (64 : BitVec 7).toNat ≤ 64
    ∧ halfA (stateOf [1]) = halfA ((stateOf [1]).set 31 5) := by decide +kernel

/-- A layout of its own: the halves apart, B first, and the lanes of B in the order P_1 gives. -/
def splitModule : BackendModule :=
  let enc : CoreState → Half × Half := fun s => (permuteLanes 1 (halfB s), halfA s)
  let dec : Half × Half → CoreState := fun x => joinHalves x.2 (permuteLanes 1 x.1)
  { Rep := Half × Half, enc := enc, dec := dec
    init := fun i r h => enc (coreInit i r h)
    absorb := fun x blk r => enc (coreAbsorb (dec x) blk r)
    finalize := fun x f h => (enc (coreFinal (dec x) f), coreOut (coreFinal (dec x) f) h)
    dec_enc := fun s => by simp [enc, dec]
    enc_dec := fun x => by simp [enc, dec]
    init_enc := fun _ _ _ => rfl
    absorb_enc := fun s blk r => by simp [enc, dec]
    finalize_enc := fun s f h => by simp [enc, dec] }

/-- Five modules with that layout, and an object of V-C1 held by Soft in it. -/
theorem witness_BackendRunEqualsCore :
    let m : BackendModules := fun _ => splitModule
    let o : HeldObject m :=
      { backend := .soft, rep := splitModule.enc (stateOf [1]), buf := heldAbc.buf, n := 3, done := false, mac := false
        lp := heldAbc.lp }
    (BackendState.logical { rest := State.reset, held := some o }).live = { heldAbc with s := stateOf [1] } := by
  decide +kernel

theorem witness_InitResult :
    (1 ≤ (zeroRounds 1).param.h.toNat ∧ (zeroRounds 64).param.h.toNat ≤ 64)
    ∧ selectBackend (zeroRounds 1) (.named .soft) = some .soft ∧ selectBackend (zeroRounds 64) .auto = some .soft := by decide

/-- H = 0 and H = 65 for the first clause; Neon, absent, for the second. -/
theorem witness_InitErrors :
    (zeroRounds 0).param.h.toNat = 0 ∧ 64 < (zeroRounds 65).param.h.toNat
    ∧ selectBackend (zeroRounds 1) (.named .neon) = none := by decide

theorem witness_ExplicitSelection :
    State.reset.caps.getLsbD (backendId .neon - 1) = false ∧ State.reset.caps.getLsbD (backendId .soft - 1) = true
    ∧ 1 ≤ State.reset.param.h.toNat ∧ State.reset.param.h.toNat ≤ 64 := by decide

theorem witness_AutomaticSelection :
    State.reset.caps.getLsbD 0 = true ∧ 1 ≤ State.reset.param.h.toNat ∧ State.reset.param.h.toNat ≤ 64 := by decide

/-- N = 3: LEN = 28 stays below a block, LEN = 29 fills it. -/
theorem witness_UpdateResult :
    heldAbc.phase = .absorb ∧ (29 : BitVec 7).toNat ≤ 32 ∧ (∀ j : Fin 32, heldAbc.n.val ≤ j.val → heldAbc.buf[j] = 0)
    ∧ heldAbc.n.val + (28 : BitVec 7).toNat < 32 ∧ 32 ≤ heldAbc.n.val + (29 : BitVec 7).toNat := by decide +kernel

theorem witness_PhaseCheck :
    State.reset.live.phase = .uninit ∧ ({ Live.uninit with phase := .done } : Live).phase = .done
    ∧ (32 : BitVec 7).toNat ≤ 32 ∧ (64 : BitVec 7).toNat ≤ 64 := by decide

theorem witness_FinalResult :
    ({ State.reset with live := heldAbc } : State).Inv ∧ heldAbc.phase = .absorb := ⟨by decide +kernel, rfl⟩

theorem witness_HashCommandsFrame :
    (∃ t, exec (.init .auto) (zeroRounds 8) = .next t ∧ t.err = .ok) ∧ (∃ t, exec (.update 3) State.reset = .next t ∧ t.err ≠ .ok)
    ∧ (∃ t, exec .final State.reset = .next t ∧ t.err ≠ .ok) :=
  ⟨⟨_, rfl, rfl⟩, ⟨_, rfl, by decide⟩, ⟨_, rfl, by decide⟩⟩

/-- "abc" as one piece and as two. -/
theorem witness_ChunkingInvariance :
    heldAbc.phase = .absorb
    ∧ (∀ c ∈ [[(0x61 : Byte), 0x62, 0x63]], c.length ≤ 32) ∧ (∀ c ∈ [[(0x61 : Byte)], [0x62, 0x63]], c.length ≤ 32)
    ∧ [[(0x61 : Byte), 0x62, 0x63]].flatten = [[(0x61 : Byte)], [0x62, 0x63]].flatten := by decide

theorem witness_DigestFunction :
    1 ≤ State.reset.param.h.toNat ∧ State.reset.param.h.toNat ≤ 64 ∧ (selectBackend State.reset .auto).isSome = true
    ∧ (∀ c ∈ [[(0x61 : Byte)], []], c.length ≤ 32) := by decide

theorem witness_MacInitResult :
    1 ≤ (zeroRounds 64).param.h.toNat ∧ (zeroRounds 64).param.h.toNat ≤ 64
    ∧ selectBackend (zeroRounds 64) (.named .soft) = some .soft := by decide

/-- One input for each clause: H = 0, H = 65; KEYLEN = 63; Neon, absent. -/
theorem witness_MacInitErrors :
    (zeroRounds 0).param.h.toNat = 0 ∧ 64 < (zeroRounds 65).param.h.toNat ∧ (63 : BitVec 7).toNat ≠ 64
    ∧ (64 : BitVec 7).toNat = 64 ∧ selectBackend (zeroRounds 64) (.named .neon) = none := by decide

theorem witness_VerifyMatchesFinal :
    ({ heldAbc with mac := true } : Live).phase = .absorb ∧ (32 : BitVec 7).toNat ≤ 64 ∧ heldAbc.lp.h.toNat ≤ 64 := by decide

theorem witness_VerifyNeedsMacObject :
    heldAbc.phase = .absorb ∧ heldAbc.mac = false ∧ (64 : BitVec 7).toNat ≤ 64 := by decide

theorem witness_MacCommandsFrame :
    (∃ t, exec (.macInit 63 .auto) State.reset = .next t ∧ t.err ≠ .ok) ∧ (∃ t, exec (.verify 3) State.reset = .next t ∧ t.err ≠ .ok)
    ∧ (∃ t, exec (.macInit 64 .auto) (zeroRounds 8) = .next t ∧ t.err = .ok) :=
  ⟨⟨_, rfl, by decide⟩, ⟨_, rfl, by decide⟩, ⟨_, rfl, rfl⟩⟩

/-- A key of 64 bytes 0x0A and the message "abc"; the prefixed message cut into pieces of 32, 32 and 3. -/
theorem witness_MacEqualsPrefixedHash :
    let key := List.replicate 64 (0x0A : Byte)
    let ps : List (List Byte) := [[0x61, 0x62, 0x63]]
    let qs := [List.replicate 32 (0x0A : Byte), List.replicate 32 0x0A, [0x61, 0x62, 0x63]]
    1 ≤ State.reset.param.h.toNat ∧ State.reset.param.h.toNat ≤ 64 ∧ (selectBackend State.reset .auto).isSome = true
    ∧ key.length = 64 ∧ (∀ c ∈ ps, c.length ≤ 32) ∧ (∀ c ∈ qs, c.length ≤ 32) ∧ qs.flatten = key ++ ps.flatten := by
  decide +kernel

/-- The reset state with these words in CM and CP. -/
def staged (cm cp : Word) : State := { State.reset with staging := { Staging.zero with cm := cm, cp := cp } }

/-- CM = 0 for the first clause. -/
theorem witness_CtxLoadResult_uninit :
    let g := (staged 0 0xFFFFFFFF).staging
    g.cm &&& ~~~(0x001F0770 : Word) = 0 ∧ cmPhase g.cm = some .uninit ∧ g.cm = 0 := by decide

/-- N = 31 in ABSORB, with Soft and H = 32, for the second clause. -/
theorem witness_CtxLoadResult_absorb :
    let g := (staged 0x001F0110 0x20201010).staging
    g.cm &&& ~~~(0x001F0770 : Word) = 0 ∧ cmPhase g.cm = some .absorb ∧ (g.cm.extractLsb' 16 5).toNat = 31
    ∧ g.cp.getLsbD 31 = false ∧ 1 ≤ (g.cp.extractLsb' 24 7).toNat ∧ (g.cp.extractLsb' 24 7).toNat ≤ 64
    ∧ (g.cm.extractLsb' 8 3).toNat = backendId .soft ∧ State.reset.caps.getLsbD (backendId .soft - 1) = true := by decide

/-- N = 0 in DONE, with Soft and H = 64, for the second clause. -/
theorem witness_CtxLoadResult_done :
    let g := (staged 0x00000120 0x40201010).staging
    g.cm &&& ~~~(0x001F0770 : Word) = 0 ∧ cmPhase g.cm = some .done ∧ g.cm.extractLsb' 16 5 = 0
    ∧ g.cp.getLsbD 31 = false ∧ 1 ≤ (g.cp.extractLsb' 24 7).toNat ∧ (g.cp.extractLsb' 24 7).toNat ≤ 64
    ∧ (g.cm.extractLsb' 8 3).toNat = backendId .soft ∧ State.reset.caps.getLsbD (backendId .soft - 1) = true := by decide

/-- One staging context for each check of the first clause (V-C2, V-C3). -/
theorem witness_CtxLoadErrors_bad :
    (staged 0x00030111 0x20201010).staging.cm &&& ~~~(0x001F0770 : Word) ≠ 0
    ∧ ((staged 0x00030130 0x20201010).staging.cm.extractLsb' 4 2).toNat = 3
    ∧ (staged 0x40 0).staging.cm.getLsbD 6 = true ∧ (staged 0x100 0).staging.cm.extractLsb' 8 3 ≠ 0
    ∧ (staged 0x10000 0).staging.cm.extractLsb' 16 5 ≠ 0 ∧ (staged 0x00030120 0x20201010).staging.cm.extractLsb' 16 5 ≠ 0
    ∧ (staged 0x00030110 0xA0201010).staging.cp.getLsbD 31 = true
    ∧ ((staged 0x00030110 0x00201010).staging.cp.extractLsb' 24 7).toNat = 0
    ∧ 64 < ((staged 0x00030110 0x41201010).staging.cp.extractLsb' 24 7).toNat
    ∧ ((staged 0x00030010 0x20201010).staging.cm.extractLsb' 8 3).toNat = 0
    ∧ 5 < ((staged 0x00030610 0x20201010).staging.cm.extractLsb' 8 3).toNat := by decide

/-- A good staging context that names NEON, absent, for the second clause. -/
theorem witness_CtxLoadErrors_backend :
    let g := (staged 0x00030510 0x20201010).staging
    g.cm &&& ~~~(0x001F0770 : Word) = 0 ∧ (g.cm.extractLsb' 4 2).toNat = 1 ∧ g.cp.getLsbD 31 = false
    ∧ (g.cp.extractLsb' 24 7).toNat = 32 ∧ (g.cm.extractLsb' 8 3).toNat = 5
    ∧ (staged 0x00030510 0x20201010).caps.getLsbD ((g.cm.extractLsb' 8 3).toNat - 1) = false := by decide

theorem witness_ZeroizeResult :
    State.reset.params.hasZeroize = true ∧ ({ State.reset.params with hasZeroize := false } : Config.Params).hasZeroize = false := by
  decide

theorem witness_ContextCommandsFrame :
    (∃ t, exec .nop State.reset = .next t ∧ t.err = .ok) ∧ (∃ t, exec .ctxSave State.reset = .next t ∧ t.err = .ok)
    ∧ (∃ t, exec .ctxLoad State.reset = .next t) ∧ (∃ t, exec .zeroize State.reset = .next t ∧ t.err = .ok) :=
  ⟨⟨_, rfl, rfl⟩, ⟨_, rfl, rfl⟩, ⟨_, rfl⟩, ⟨_, rfl, rfl⟩⟩

theorem witness_CloneRestoresContext :
    ({ State.reset with live := heldAbc } : State).Inv
    ∧ ∃ t, exec .ctxSave { State.reset with live := heldAbc } = .next t
        ∧ ({ State.reset with staging := t.staging } : State).staging = t.staging ∧ State.reset.caps = capsOf State.reset.params :=
  ⟨by decide +kernel, ⟨_, rfl, rfl, rfl⟩⟩

/-- An engine with SSE2: objects alike but for the active backend, staging contexts alike but for CM.BK; INIT soft beside INIT
sse2. -/
theorem witness_NoBackendChangesResult :
    let s := State.resetWith { Config.resetParams with arch := .x86_64, feat := 0b00010 }
    let a := { s with live := heldAbc, staging := { Staging.zero with cm := 0x00000110 } }
    let b := { s with live := { heldAbc with bk := some .sse2 }, staging := { Staging.zero with cm := 0x00000210 } }
    StateTwins a b ∧ CommandTwins a b .final .final ∧ CommandTwins a b (.init (.named .soft)) (.init (.named .sse2)) :=
  ⟨by decide +kernel, .inl rfl, .inr (.inl ⟨_, _, rfl, rfl, by decide, by decide⟩)⟩

/-- A command that raises an error and one that completes with OK. -/
theorem witness_WorkIsBounded :
    (∃ t, exec .final State.reset = .next t ∧ t.err ≠ .ok) ∧ ∃ t, exec (.init .auto) (zeroRounds 8) = .next t ∧ t.err = .ok :=
  ⟨⟨_, rfl, by decide⟩, ⟨_, rfl, rfl⟩⟩

end Sys2Proof.Tests
end

section
/-!
The values of the registers after reset, and the fields of CAPS and STATUS (spec/10_state.md R34, R35, R52): O12, O17, O18.
-/

namespace Sys2Proof.Machine

theorem statusWord_resetWith (p : Config.Params) : statusWord (State.resetWith p) = 0 := by
  change bitWord 0 false ||| bitWord 1 false ||| bitWord 2 false ||| bitWord 3 false ||| contextFields Live.uninit = 0
  decide

/-- Settles O12: every register of the reset state is the constant the table gives. -/
theorem resetLeavesTheTable : Obligations.ResetLeavesTheTable := by
  intro p s
  have zero {k : Nat} (i : Fin k) : (zeroWords k)[i] = 0 := by simp [zeroWords]
  have zeroByte (j : Fin 32) : zeroBlock[j] = 0 := by simp [zeroBlock]
  have param : paramWord { i := 16, r := 16, f := 32, h := 64 } = 0x40201010 := by decide
  exact ⟨zero, zeroByte, rfl, rfl, rfl, rfl, rfl, rfl, rfl, rfl, rfl, rfl, statusWord_resetWith p, rfl, param, rfl, zero,
    zero, zero, zero, zero, zero, rfl, rfl⟩

/-- The bits of CAPS: one for each backend that is present, bit 8 for the secure erase, the rest 0 (R34). -/
theorem capsOf_getLsbD (p : Config.Params) (i : Nat) :
    (capsOf p).getLsbD i =
      (decide (i = 0) || (decide (i = 1) && backendPresent p .sse2) || (decide (i = 2) && backendPresent p .avx2)
        || (decide (i = 3) && backendPresent p .avx512) || (decide (i = 4) && backendPresent p .neon)
        || (decide (i = 8) && p.hasZeroize)) := by
  have soft : backendPresent p .soft = true := rfl
  simp only [capsOf, BitVec.getLsbD_or, bitWord_getLsbD _ _ (show 0 < 32 by omega),
    bitWord_getLsbD _ _ (show 1 < 32 by omega), bitWord_getLsbD _ _ (show 2 < 32 by omega),
    bitWord_getLsbD _ _ (show 3 < 32 by omega), bitWord_getLsbD _ _ (show 4 < 32 by omega),
    bitWord_getLsbD _ _ (show 8 < 32 by omega), soft, Bool.and_true]

/-- Settles O17: each field of CAPS is one bit of `capsOf_getLsbD`, and no bit of it lies in a reserved field. -/
theorem capsFields : Obligations.CapsFields := by
  intro p
  simp only [capsOf_getLsbD]
  refine ⟨rfl, by simp [backendPresent], by simp [backendPresent], by simp [backendPresent], by simp [backendPresent],
    by simp, fun k h5 h8 => ?_⟩
  simp [h8, show k ≠ 0 by omega, show k ≠ 1 by omega, show k ≠ 2 by omega, show k ≠ 3 by omega, show k ≠ 4 by omega]

/-- From bit 4 up STATUS holds the context fields alone (R35). -/
theorem statusWord_getLsbD_high (s : State) (i : Nat) (h : 4 ≤ i) :
    (statusWord s).getLsbD i = (contextFields s.live).getLsbD i := by
  rw [statusWord_getLsbD]
  simp [show i ≠ 0 by omega, show i ≠ 1 by omega, show i ≠ 2 by omega, show i ≠ 3 by omega]

theorem statusWord_extractLsb'_high (s : State) (start len : Nat) (h : 4 ≤ start) :
    (statusWord s).extractLsb' start len = (contextFields s.live).extractLsb' start len := by
  apply BitVec.eq_of_getLsbD_eq
  intro i _
  rw [BitVec.getLsbD_extractLsb', BitVec.getLsbD_extractLsb', statusWord_getLsbD_high s _ (by omega)]

/-- ESTICKY is bit 1 of STATUS (R35). -/
theorem statusWord_bit1 (s : State) : (statusWord s).getLsbD 1 = s.esticky := by
  rw [statusWord_getLsbD, contextFields_low _ _ (by omega)]
  simp

/-- VOK is bit 3 of STATUS (R35). -/
theorem statusWord_bit3 (s : State) : (statusWord s).getLsbD 3 = s.vok := by
  rw [statusWord_getLsbD, contextFields_low _ _ (by omega)]
  simp

/-- Settles O18: bits 0 to 3 are the flags, and the fields above are those of the live context. -/
theorem statusFields : Obligations.StatusFields := by
  intro s
  obtain ⟨hphase, hmac, h7, hbk, h11, hn, h21⟩ := contextFields_fields s.live
  refine ⟨statusWord_bit0 s, statusWord_bit1 s, statusWord_bit2 s, statusWord_bit3 s, ?_, ?_, ?_, ?_, ?_, ?_, ?_⟩
  · exact (statusWord_extractLsb'_high s 4 2 (by omega)).trans hphase
  · exact (statusWord_getLsbD_high s 6 (by omega)).trans hmac
  · exact (statusWord_getLsbD_high s 7 (by omega)).trans h7
  · exact (statusWord_extractLsb'_high s 8 3 (by omega)).trans hbk
  · exact (statusWord_extractLsb'_high s 11 5 (by omega)).trans h11
  · show ((statusWord s).extractLsb' 16 5).toNat = s.live.n.val
    rw [statusWord_extractLsb'_high s 16 5 (by omega), hn, BitVec.toNat_ofNat]
    exact Nat.mod_eq_of_lt s.live.n.isLt
  · exact (statusWord_extractLsb'_high s 21 11 (by omega)).trans h21

end Sys2Proof.Machine
end

section
/-!
What each command and each host event does to the live context and to the wait for a poll, and the invariant of
spec/10_state.md R32 along every step (O14, O15, O29).
-/

namespace Sys2Proof.Machine

/-! ### The contexts that meet R32 -/

theorem legalH_iff (h : BitVec 7) : legalH h = true ↔ 1 ≤ h.toNat ∧ h.toNat ≤ 64 := by
  simp [legalH]

theorem Live.uninit_inv (caps : Word) : Live.uninit.Inv caps :=
  ⟨fun j _ => by simp [Live.uninit, zeroBlock], fun _ => rfl, fun _ => rfl, fun h => absurd rfl h⟩

theorem startObject_inv {caps : Word} {p : HashParams} {k : Backend} (st : CoreState) (mac : Bool)
    (hp : legalH p.h = true) (hk : available caps k = true) : (startObject p st mac k).Inv caps :=
  ⟨fun j _ => by simp [startObject, zeroBlock], fun _ => rfl, fun h => (nomatch (h : Phase.absorb = .uninit)),
    fun _ => ⟨hk, (legalH_iff _).mp hp⟩⟩

theorem bufAppendAll_inv {caps : Word} {c : Live} (bs : List Byte) (hc : c.Inv caps) (hp : c.phase = .absorb) :
    (bufAppendAll c bs).Inv caps := by
  obtain ⟨hzero, -, -, hobject⟩ := hc
  exact ⟨bufAppendAll_zero_above c bs hzero, by simp [hp], by simp [hp], by simpa [hp] using hobject⟩

theorem finalized_done_inv {caps : Word} {c : Live} (hc : c.Inv caps) (hp : c.phase = .absorb) :
    ({ finalized c with phase := .done } : Live).Inv caps := by
  obtain ⟨-, -, -, hobject⟩ := hc
  exact ⟨fun j _ => by simp [zeroBlock], by simp, by simp, fun _ => by simpa [hp] using hobject⟩

/-- The object CTX_LOAD makes of a staging context in phase `ph` that names backend `k` (spec/46_context_commands.md R182). -/
def loadedObject (g : Staging) (ph : Phase) (k : Backend) : Live :=
  { s := g.cs
    buf := Vector.ofFn fun j => if j.val < (cmN g.cm).val then winByte g.cb j.val else 0
    n := cmN g.cm
    phase := ph
    mac := cmMac g.cm
    bk := some k
    lp := paramOfWord g.cp }

/-- What CTX_LOAD accepts: the UNINIT context, or an object that passed the checks of R182. -/
theorem loadContext_eq_ok {caps : Word} {g : Staging} {c : Live} (h : loadContext caps g = .ok c) :
    c = Live.uninit
    ∨ ∃ ph k, ph ≠ .uninit ∧ (ph = .done → cmN g.cm = 0) ∧ legalH (paramOfWord g.cp).h = true
        ∧ available caps k = true ∧ c = loadedObject g ph k := by
  unfold loadContext at h
  split at h
  · cases h
  split at h
  · cases h
  · split at h
    · cases h
    · exact .inl (Except.ok.inj h).symm
  · rename_i ph hph _
    split at h
    · cases h
    rename_i hdone
    split at h
    · cases h
    split at h
    · rename_i hlegal
      split at h
      · cases h
      · split at h
        · rename_i k _ hk
          have hn : ph = .done → cmN g.cm = 0 := fun hd => not_not.mp fun hne => hdone ⟨hd, hne⟩
          exact .inr ⟨ph, k, by simpa using hph, hn, hlegal, hk, (Except.ok.inj h).symm⟩
        · cases h
    · cases h

theorem loadedObject_inv {caps : Word} {g : Staging} {ph : Phase} {k : Backend} (hph : ph ≠ .uninit)
    (hn : ph = .done → cmN g.cm = 0) (hlegal : legalH (paramOfWord g.cp).h = true) (hk : available caps k = true) :
    (loadedObject g ph k).Inv caps := by
  refine ⟨fun j hj => ?_, fun hne => ?_, fun h => absurd h hph, fun _ => ⟨hk, (legalH_iff _).mp hlegal⟩⟩
  · have hge : ¬ j.val < (cmN g.cm).val := Nat.not_lt.mpr hj
    simp only [loadedObject, Fin.getElem_fin, Vector.getElem_ofFn, if_neg hge]
  · cases ph with
    | uninit => exact absurd rfl hph
    | absorb => exact absurd rfl hne
    | done => exact hn rfl

theorem loadContext_inv {caps : Word} {g : Staging} {c : Live} (h : loadContext caps g = .ok c) : c.Inv caps := by
  obtain rfl | ⟨ph, k, hph, hn, hlegal, hk, rfl⟩ := loadContext_eq_ok h
  · exact Live.uninit_inv caps
  · exact loadedObject_inv hph hn hlegal hk

theorem selectBackend_available {s : State} {sel : Selector} {k : Backend} (hsoft : available s.caps .soft = true)
    (h : selectBackend s sel = some k) : available s.caps k = true := by
  cases sel with
  | auto => exact Option.some.inj h ▸ selectAuto_available s.params s.caps hsoft
  | named b =>
    obtain ⟨rfl, hb⟩ := (selectExplicit_eq_some s.caps b k).mp h
    exact hb

/-! ### What the engine's step does to the live context -/

/-- The live contexts a command can leave, from state `s`: one constructor for each way a command writes it
(spec/44_hash_commands.md R154 to R156, spec/45_mac_commands.md R171, spec/46_context_commands.md R182, R183). -/
inductive LiveMove (s : State) : Live → Prop where
  | kept : LiveMove s s.live
  | started {sel : Selector} {k : Backend} (st : CoreState) (mac : Bool) (hlegal : legalH s.param.h = true)
      (hsel : selectBackend s sel = some k) : LiveMove s (startObject s.param st mac k)
  | appended (bs : List Byte) (habsorb : s.live.phase = .absorb) : LiveMove s (bufAppendAll s.live bs)
  | finished (habsorb : s.live.phase = .absorb) : LiveMove s { finalized s.live with phase := .done }
  | loaded {c : Live} (h : loadContext s.caps s.staging = .ok c) : LiveMove s c
  | erased : LiveMove s Live.uninit

theorem exec_liveMove (i : Instr) (s : State) : ∃ t, exec i s = .next t ∧ LiveMove s t.live := by
  have fails (e : ErrCode) : ∃ t, raise e s = .next t ∧ LiveMove s t.live := ⟨_, rfl, .kept⟩
  cases i with
  | nop => exact ⟨_, rfl, .kept⟩
  | init bk =>
    simp only [exec, execInit]
    split
    · split
      · exact ⟨_, rfl, .started _ _ ‹_› ‹_›⟩
      · exact fails _
    · exact fails _
  | update len =>
    simp only [exec, execUpdate]
    split
    · exact fails _
    · split
      · exact fails _
      · exact ⟨_, rfl, .appended _ ((guardAbsorb_eq_none _).mp ‹_›)⟩
  | final =>
    simp only [exec, execFinal]
    split
    · exact fails _
    · exact ⟨_, rfl, .finished ((guardAbsorb_eq_none _).mp ‹_›)⟩
  | macInit keylen bk =>
    simp only [exec, execMacInit]
    split
    · split
      · split
        · exact ⟨_, rfl, .started _ _ ‹_› ‹_›⟩
        · exact ⟨_, rfl, .kept⟩
      · exact ⟨_, rfl, .kept⟩
    · exact ⟨_, rfl, .kept⟩
  | verify taglen =>
    simp only [exec, execVerify]
    split
    · exact fails _
    · split
      · exact fails _
      · split
        · exact ⟨_, rfl, .kept⟩
        · exact fails _
  | ctxSave => exact ⟨_, rfl, .kept⟩
  | ctxLoad =>
    simp only [exec, execCtxLoad]
    split
    · exact ⟨_, rfl, .loaded ‹_›⟩
    · exact fails _
  | zeroize =>
    simp only [exec, execZeroize]
    split
    · exact ⟨_, rfl, .erased⟩
    · exact fails _

theorem LiveMove.keeps_inv {s : State} {c : Live} (h : LiveMove s c) (hs : s.live.Inv s.caps)
    (hsoft : available s.caps .soft = true) : c.Inv s.caps := by
  cases h with
  | kept => exact hs
  | started st mac hlegal hsel => exact startObject_inv st mac hlegal (selectBackend_available hsoft hsel)
  | appended bs habsorb => exact bufAppendAll_inv bs hs habsorb
  | finished habsorb => exact finalized_done_inv hs habsorb
  | loaded h => exact loadContext_inv h
  | erased => exact Live.uninit_inv s.caps

/-- The engine's step keeps the parameters and CAPS, ends the command and moves the live context. -/
theorem engineStep_next {cw : Word} {s t : State} (h : engineStep cw s = .next t) :
    t.params = s.params ∧ t.caps = s.caps ∧ t.pending = none ∧ LiveMove s t.live := by
  obtain ⟨i, -, he⟩ | ⟨e, -, he⟩ := engineStep_cases cw s
  · obtain ⟨u, hu, hmove⟩ := exec_liveMove i s
    obtain ⟨code, eq, v, hv, ⟨hparams, hcaps, -⟩, -, -⟩ := exec_shape i s
    obtain rfl : u = t := by simpa [he, hu] using h
    obtain rfl : complete code eq v = u := by simpa [hu] using hv.symm
    exact ⟨hparams, hcaps, rfl, hmove⟩
  · obtain rfl : complete .illegalCommand false s = t := by simpa [he] using h
    exact ⟨rfl, rfl, rfl, .kept⟩

theorem engineStep_keeps_inv {cw : Word} {s t : State} (hs : s.Inv) (h : engineStep cw s = .next t) : t.Inv := by
  obtain ⟨hlive, hcaps, -⟩ := hs
  obtain ⟨hp, hc, hidle, hmove⟩ := engineStep_next h
  have hsoft : available s.caps .soft = true := hcaps ▸ available_capsOf_soft s.params
  exact ⟨hc ▸ hmove.keeps_inv hlive hsoft, by rw [hc, hp, hcaps], by simp [State.busy, hidle]⟩

/-! ### What the host's step does to the wait for a poll -/

@[simp] theorem countAccess_busy (s : State) : (countAccess s).busy = s.busy := by simp [State.busy]

@[simp] theorem hostRead_busy (off : Nat) (s : State) : (hostRead off s).busy = s.busy := rfl

/-- While a command is pending a read ends no wait for a poll: it returns BUSY = 1 (spec/70_reset_and_hazards.md R243). -/
theorem hostRead_unpolled_busy (off : Nat) (s : State) (h : s.busy = true) :
    (hostRead off s).unpolled = s.unpolled := by
  simp [h]

/-- A write of CMD starts a wait for a poll; any other leaves the wait and the pending command alone (R67, R243). -/
theorem writeReg_pending_cases (r : Reg) (v : Word) (s : State) :
    (r = .cmd ∧ (writeReg r v s).unpolled = true)
    ∨ ((writeReg r v s).busy = s.busy ∧ (writeReg r v s).unpolled = s.unpolled) := by
  cases r with
  | cmd => exact .inl ⟨rfl, rfl⟩
  | id | caps | status | err | dout | reserved => exact .inr ⟨rfl, rfl⟩
  | param | din | key | tag | cs | cb | cm | cp =>
    simp only [writeReg, takeUnlessBusy]
    split <;> exact .inr ⟨rfl, rfl⟩

theorem writeReg_keeps_wait (r : Reg) (v : Word) {s : State} (hs : s.busy = true → s.unpolled = true) :
    (writeReg r v s).busy = true → (writeReg r v s).unpolled = true := by
  obtain ⟨-, hu⟩ | ⟨hb, hu⟩ := writeReg_pending_cases r v s
  · exact fun _ => hu
  · rwa [hb, hu]

/-- No event of the outside leaves a pending command that the host has not still to poll (R243). -/
theorem hostEvent_keeps_wait {e : Event} {s t : State} (h : hostEvent e s = .next t)
    (hs : s.busy = true → s.unpolled = true) : t.busy = true → t.unpolled = true := by
  have read_keeps (off : Nat) :
      (countAccess (hostRead off s)).busy = true → (countAccess (hostRead off s)).unpolled = true := by
    rw [countAccess_busy]
    exact fun hb => (hostRead_unpolled_busy off s hb).trans (hs hb)
  cases e with
  | read addr bytes =>
    simp only [hostEvent] at h
    split at h <;> cases h
    exact read_keeps _
  | write addr bytes v =>
    simp only [hostEvent] at h
    split at h <;> cases h
    have hw := writeReg_keeps_wait (regAt ‹Nat›) v hs
    split
    · rw [countAccess_busy]; exact hw
    · exact hw
  | poll =>
    simp only [hostEvent] at h
    cases h
    split <;> exact read_keeps 0x008
  | reset => cases h; simp [State.busy]
  | otherHost => cases h

theorem resetWith_inv (p : Config.Params) : (State.resetWith p).Inv :=
  ⟨Live.uninit_inv _, rfl, fun h => nomatch h⟩

theorem hostEvent_keeps_inv {e : Event} {s t : State} (hs : s.Inv) (h : hostEvent e s = .next t) : t.Inv := by
  obtain ⟨hlive, hcaps, hwait⟩ := hs
  have hwait' := hostEvent_keeps_wait h hwait
  obtain ⟨f, he⟩ | ⟨-, he⟩ | ⟨-, he⟩ | ⟨u, he, hl, -, -, -, hc, hp⟩ := hostEvent_cases e s
    <;> rw [he] at h <;> cases h
  · exact ⟨Live.uninit_inv _, rfl, hwait'⟩
  · exact ⟨by rwa [hl, hc], by rw [hc, hp, hcaps], hwait'⟩

/-- The host's step makes the first event's move, or none. -/
theorem hostStep_next {s t : State} (h : hostStep s = .next t) :
    (s.events = [] ∧ t = s)
    ∨ ∃ e rest, s.events = e :: rest ∧ hostEvent e { s with events := rest } = .next t := by
  cases he : s.events with
  | nil => exact .inl ⟨rfl, by simpa [hostStep, he, eq_comm] using h⟩
  | cons e rest => exact .inr ⟨e, rest, rfl, hostStep_cons s e rest he ▸ h⟩

theorem hostStep_keeps_inv {s t : State} (hs : s.Inv) (h : hostStep s = .next t) : t.Inv := by
  obtain ⟨-, rfl⟩ | ⟨e, rest, -, h⟩ := hostStep_next h
  · exact hs
  · exact hostEvent_keeps_inv (s := { s with events := rest }) hs h

/-- Settles O15: the engine's step and the host's each keep the invariant. -/
theorem stepKeepsInvariant : Obligations.StepKeepsInvariant := by
  intro s t hs h
  obtain ⟨p, -, -, he⟩ | ⟨-, he⟩ | ⟨p, -, -, -, he⟩ := step_cases s <;> rw [he] at h
  · exact engineStep_keeps_inv hs h
  · exact hostStep_keeps_inv hs h
  · exact hostStep_keeps_inv hs h

/-- Settles O14: the reset context is the UNINIT one, CAPS is the latched value and nothing is pending. -/
theorem resetMeetsInvariant : Obligations.ResetMeetsInvariant :=
  ⟨resetWith_inv, resetWith_inv _⟩

/-- Settles O29: of all events only a reset writes what the engine alone writes. -/
theorem hostNeverTouchesContext : Obligations.HostNeverTouchesContext := by
  intro s t h hreset
  obtain ⟨-, rfl⟩ | ⟨e, rest, hev, h⟩ := hostStep_next h
  · exact ⟨rfl, rfl, rfl, rfl, rfl, rfl⟩
  · obtain ⟨f, he⟩ | ⟨-, he⟩ | ⟨rfl, -⟩ | ⟨u, he, hkeeps⟩ := hostEvent_cases e { s with events := rest }
    · cases he ▸ h
    · cases he ▸ h
    · exact absurd hev (hreset rest)
    · cases he ▸ h
      exact hkeeps

end Sys2Proof.Machine
end

section
/-!
States that differ in KEY alone step alike (spec/10_state.md R40): O30.
-/

namespace Sys2Proof.Machine

variable (s : State) (k : Vector Word 16)

theorem sameButKey_iff {s t : State} : SameButKey s t ↔ ∃ k, t = { s with key := k } :=
  ⟨fun h => ⟨t.key, h.symm⟩, by rintro ⟨k, rfl⟩; rfl⟩

/-! ### Commands -/

theorem exec_sameButKey (i : Instr) (h : ∀ keylen bk, i ≠ .macInit keylen bk) :
    OutcomeRel SameButKey (exec i s) (exec i { s with key := k }) := by
  cases i with
  | nop => exact rfl
  | init bk =>
    have hsel : selectBackend { s with key := k } bk = selectBackend s bk := by cases bk <;> rfl
    simp only [exec, execInit, hsel]
    split
    · split <;> exact rfl
    · exact rfl
  | update len =>
    simp only [exec, execUpdate]
    split
    · exact rfl
    · split <;> exact rfl
  | final =>
    simp only [exec, execFinal]
    split <;> exact rfl
  | macInit keylen bk => exact absurd rfl (h keylen bk)
  | verify taglen =>
    simp only [exec, execVerify]
    split
    · exact rfl
    · split
      · exact rfl
      · split <;> exact rfl
  | ctxSave => exact rfl
  | ctxLoad =>
    simp only [exec, execCtxLoad]
    split <;> exact rfl
  | zeroize =>
    simp only [exec, execZeroize]
    split <;> exact rfl

theorem engineStep_sameButKey (cw : Word)
    (h : ∀ keylen bk, decode s.params.hasZeroize cw ≠ .ok (.macInit keylen bk)) :
    OutcomeRel SameButKey (engineStep cw s) (engineStep cw { s with key := k }) := by
  simp only [engineStep]
  split
  · rename_i i hi
    exact exec_sameButKey s k i fun keylen bk hm => h keylen bk (hm ▸ hi)
  · exact rfl

/-! ### The host's accesses -/

/-- No register reads KEY: KEY itself reads 0 (R40, spec/20_memory.md R66). -/
theorem regValue_setKey (r : Reg) : regValue { s with key := k } r = regValue s r := by
  cases r <;> rfl

theorem readValue_setKey (r : Reg) : readValue { s with key := k } r = readValue s r := by
  simp only [readValue, regValue_setKey]
  rfl

theorem hostRead_setKey (off : Nat) :
    hostRead off { s with key := k } = { hostRead off s with key := k } := by
  simp only [hostRead, readValue_setKey]
  rfl

/-- BUSY does not depend on KEY, so both writes are taken or both are dropped (spec/20_memory.md R71). -/
theorem takeUnlessBusy_sameButKey {taken taken' : State} (h : SameButKey taken taken') :
    SameButKey (takeUnlessBusy s taken) (takeUnlessBusy { s with key := k } taken') := by
  have hbusy : ({ s with key := k } : State).busy = s.busy := rfl
  simp only [takeUnlessBusy, hbusy]
  split
  · exact rfl
  · exact h

theorem writeReg_sameButKey (r : Reg) (v : Word) : SameButKey (writeReg r v s) (writeReg r v { s with key := k }) := by
  cases r with
  | id | caps | status | err | dout | reserved => exact rfl
  | cmd =>
    have accepted : SameButKey (acceptCommand v s) (acceptCommand v { s with key := k }) := rfl
    exact congrArg (fun u : State => { u with unpolled := true }) (takeUnlessBusy_sameButKey s k accepted)
  | param | din | key | tag | cs | cb | cm | cp => exact takeUnlessBusy_sameButKey s k (by rfl)

/-- Counting a host access keeps the relation: it does not touch KEY. -/
theorem countAccess_sameButKey {s t : State} (h : SameButKey s t) : SameButKey (countAccess s) (countAccess t) :=
  congrArg countAccess h

theorem hostEvent_sameButKey (e : Event) :
    OutcomeRel SameButKey (hostEvent e s) (hostEvent e { s with key := k }) := by
  cases e with
  | read addr bytes =>
    simp only [hostEvent]
    split
    · rw [hostRead_setKey]; exact rfl
    · exact rfl
  | write addr bytes v =>
    simp only [hostEvent]
    split
    · rename_i off _
      have hw : SameButKey (hostWrite off v s) (hostWrite off v { s with key := k }) := writeReg_sameButKey s k (regAt off) v
      have hbusy : ({ s with key := k } : State).busy = s.busy := rfl
      rw [hbusy]
      split
      · exact countAccess_sameButKey hw
      · exact hw
    · exact rfl
  | poll =>
    simp only [hostEvent, readValue_setKey, hostRead_setKey]
    split <;> exact rfl
  | reset => exact rfl
  | otherHost => exact rfl

theorem hostStep_sameButKey : OutcomeRel SameButKey (hostStep s) (hostStep { s with key := k }) := by
  simp only [hostStep]
  split
  · exact rfl
  · exact hostEvent_sameButKey _ k _

/-- Settles O30: which agent moves does not depend on KEY, and the engine's commands but MAC_INIT and the host's accesses each
keep the relation. -/
theorem keyCannotBeReadBack : Obligations.KeyCannotBeReadBack := by
  intro s t hst hmac
  obtain ⟨k, rfl⟩ := sameButKey_iff.mp hst
  obtain ⟨p, hp, hmove, he⟩ | ⟨hp, he⟩ | ⟨p, hp, hw, hev, he⟩ := step_cases s
  · rw [he, step_engine { s with key := k } p hp hmove]
    exact engineStep_sameButKey s k p.cw fun keylen bk => hmac p keylen bk hp hmove
  · rw [he, step_idle { s with key := k } hp]
    exact hostStep_sameButKey s k
  · rw [he, step_busy_host { s with key := k } p hp hw hev]
    exact hostStep_sameButKey s k

end Sys2Proof.Machine
end

section
/-!
The register map as a bijection between registers and their offsets (spec/20_memory.md R61, R62): O19, O20.
-/

namespace Sys2Proof.Machine

theorem regOffset_lt (r : Reg) : regOffset r < 0x400 := by
  cases r <;> simp only [regOffset] <;> omega

theorem regOffset_aligned (r : Reg) : regOffset r % 4 = 0 := by
  cases r <;> simp only [regOffset] <;> omega

theorem regAt_regOffset (r : Reg) : regAt (regOffset r) = r := by
  cases r with
  | din k | key k | tag k | dout k | cs k | cb k => revert k; decide
  | id | caps | status | err | param | cmd | cm | cp | reserved => rfl

/-- The offsets of the reserved ranges of R61. -/
abbrev InReservedRange (off : Nat) : Prop :=
  (0x018 ≤ off ∧ off ≤ 0x03C) ∨ (0x060 ≤ off ∧ off ≤ 0x07C) ∨ (0x140 ≤ off ∧ off ≤ 0x1FC) ∨ 0x2A8 ≤ off

/-- `r` has its place in the map at `off` (R61). -/
def PlacedAt (off : Nat) (r : Reg) : Prop := (r = .reserved ∧ InReservedRange off) ∨ (r ≠ .reserved ∧ regOffset r = off)

theorem PlacedAt.ite {off : Nat} {c : Prop} [Decidable c] {a b : Reg} (ha : c → PlacedAt off a)
    (hb : ¬ c → PlacedAt off b) : PlacedAt off (if c then a else b) := by
  split
  · exact ha ‹_›
  · exact hb ‹_›

theorem PlacedAt.dite {off : Nat} {c : Prop} [Decidable c] {a : c → Reg} {b : Reg} (ha : ∀ h, PlacedAt off (a h))
    (hb : ¬ c → PlacedAt off b) : PlacedAt off (if h : c then a h else b) := by
  split
  · exact ha _
  · exact hb ‹_›

/-- Word `(off - base) / 4` of a window that begins at `base` is at `off`. -/
theorem base_add_wordIndex {base off : Nat} (hbase : base % 4 = 0) (h4 : off % 4 = 0) (h : base ≤ off) :
    base + 4 * ((off - base) / 4) = off := by omega

/-- The clauses of the map in order: each gives its register at its own offset, and past the last one only the reserved ranges
are left. -/
theorem regAt_placed {off : Nat} (h4 : off % 4 = 0) : PlacedAt off (regAt off) := by
  refine .ite (fun h => .inr ⟨nofun, h.symm⟩) fun _ => .ite (fun h => .inr ⟨nofun, h.symm⟩) fun _ => ?_
  refine .ite (fun h => .inr ⟨nofun, h.symm⟩) fun _ => .ite (fun h => .inr ⟨nofun, h.symm⟩) fun _ => ?_
  refine .ite (fun h => .inr ⟨nofun, h.symm⟩) fun _ => .ite (fun h => .inr ⟨nofun, h.symm⟩) fun _ => ?_
  refine .dite (fun h => .inr ⟨nofun, base_add_wordIndex rfl h4 h.1⟩) fun _ => ?_
  refine .dite (fun h => .inr ⟨nofun, base_add_wordIndex rfl h4 h.1⟩) fun _ => ?_
  refine .dite (fun h => .inr ⟨nofun, base_add_wordIndex rfl h4 h.1⟩) fun _ => ?_
  refine .dite (fun h => .inr ⟨nofun, base_add_wordIndex rfl h4 h.1⟩) fun _ => ?_
  refine .dite (fun h => .inr ⟨nofun, base_add_wordIndex rfl h4 h.1⟩) fun _ => ?_
  refine .dite (fun h => .inr ⟨nofun, base_add_wordIndex rfl h4 h.1⟩) fun _ => ?_
  refine .ite (fun h => .inr ⟨nofun, h.symm⟩) fun _ => .ite (fun h => .inr ⟨nofun, h.symm⟩) fun _ => ?_
  exact .inl ⟨rfl, by simp only [InReservedRange]; omega⟩

theorem regOffset_regAt {off : Nat} (h4 : off % 4 = 0) (h : regAt off ≠ .reserved) : regOffset (regAt off) = off := by
  obtain ⟨hres, -⟩ | ⟨-, hoff⟩ := regAt_placed h4
  · exact absurd hres h
  · exact hoff

theorem regOffset_not_inReservedRange {r : Reg} (h : r ≠ .reserved) : ¬ InReservedRange (regOffset r) := by
  cases r with
  | reserved => exact absurd rfl h
  | id | caps | status | err | param | cmd | cm | cp => decide
  | din | key | tag | dout | cs | cb => simp only [InReservedRange, regOffset]; omega

theorem regAt_eq_reserved_iff {off : Nat} (h4 : off % 4 = 0) : regAt off = .reserved ↔ InReservedRange off := by
  obtain ⟨hres, hrange⟩ | ⟨hne, hoff⟩ := regAt_placed h4
  · exact iff_of_true hres hrange
  · exact iff_of_false hne (hoff ▸ regOffset_not_inReservedRange hne)

/-- Settles O19: the two maps are inverse to each other outside the reserved ranges. -/
theorem registerMapIsOneToOne : Obligations.RegisterMapIsOneToOne :=
  ⟨regAt_regOffset, fun _ _ h4 h => regOffset_regAt h4 h, rfl, rfl, rfl, rfl, rfl, rfl,
    fun k => regAt_regOffset (.din k), fun k => regAt_regOffset (.key k), fun k => regAt_regOffset (.tag k),
    fun k => regAt_regOffset (.dout k), fun k => regAt_regOffset (.cs k), fun k => regAt_regOffset (.cb k), rfl, rfl,
    fun _ _ h4 => regAt_eq_reserved_iff h4⟩

/-- A reserved offset is no register of R73, so it reads 0 while BUSY = 1 too (log 6). -/
theorem readValue_reserved (s : State) : readValue s .reserved = 0 := by
  cases hb : s.busy with
  | false => simp [readValue, hb, regValue]
  | true => exact readValue_busy_exact s .reserved hb Reg.noConfusion rfl

/-- Settles O20: each of these offsets is that of no register. -/
theorem reservedOffsetsReadZero : Obligations.ReservedOffsetsReadZero := by
  intro s off v h4 hrange
  have hreg : regAt off = .reserved := (regAt_eq_reserved_iff h4).mpr (by omega)
  rw [hostWrite, hreg]
  exact ⟨readValue_reserved s, rfl⟩

end Sys2Proof.Machine
end

section
/-!
The rule of each kind of step of the host: a read, a write, a fault, the refusal (spec/20_memory.md R66 to R68, R82), and of the
engine's (R70): O7, O27, O28.
-/

namespace Sys2Proof.Machine

/-- The host moves unless a pending command has waited for all the accesses its latency allows (log 4). -/
theorem step_host {s : State} (hwait : ∀ p, s.pending = some p → p.wait ≠ 0) (hev : s.events ≠ []) :
    step s = hostStep s := by
  cases hp : s.pending with
  | none => exact step_idle s hp
  | some p => exact step_busy_host s p hp (hwait p hp) hev

theorem step_event {s : State} {e : Event} {rest : List Event} (hwait : ∀ p, s.pending = some p → p.wait ≠ 0)
    (hev : s.events = e :: rest) : step s = hostEvent e { s with events := rest } := by
  rw [step_host hwait (by simp [hev]), hostStep_cons s e rest hev]

theorem wait_ne_zero_of_idle {s : State} (h : s.pending = none) : ∀ p, s.pending = some p → p.wait ≠ 0 := by
  simp [h]

theorem wait_ne_zero_of_pending {s : State} {p : Pending} (h : s.pending = some p) (hw : p.wait ≠ 0) :
    ∀ q, s.pending = some q → q.wait ≠ 0 := by
  simp [h, hw]

/-! ### The engine's step -/

/-- Settles O7: the decoder's answer is the command `exec` performs. -/
theorem stepRunsDecodedCommand : Obligations.StepRunsDecodedCommand := by
  intro s p i hp hmove hdecode
  rw [step_engine s p hp hmove]
  obtain ⟨j, hj, he⟩ | ⟨e, he, -⟩ := engineStep_cases p.cw s
  · obtain rfl : i = j := Except.ok.inj (hdecode.symm.trans hj)
    exact he
  · cases hdecode.symm.trans he

/-! ### Accesses that stop the run -/

theorem windowOffset_busError {p : Config.Params} {addr bytes : Nat} (hlow : p.base ≤ addr) (hhigh : addr < p.base + 0x400)
    (h : bytes ≠ 4 ∨ addr % 4 ≠ 0) : windowOffset p addr bytes = .error .busError := by
  have hbad : ¬ (bytes = 4 ∧ addr % 4 = 0) := by omega
  rw [windowOffset, if_pos ⟨hlow, hhigh⟩, if_neg hbad]

theorem windowOffset_outside {p : Config.Params} {addr : Nat} (bytes : Nat)
    (h : addr < p.base ∨ p.base + 0x400 ≤ addr) : windowOffset p addr bytes = .error .outsideWindow := by
  have hout : ¬ (p.base ≤ addr ∧ addr < p.base + 0x400) := by omega
  rw [windowOffset, if_neg hout]

theorem hostEvent_fault {e : Event} {s : State} {addr bytes : Nat} {v : Word} {f : Fault}
    (he : e = .read addr bytes ∨ e = .write addr bytes v) (hf : windowOffset s.params addr bytes = .error f) :
    hostEvent e s = .fault f := by
  obtain rfl | rfl := he <;> simp only [hostEvent, hf]

/-- Settles O27: an access without a window offset faults, whatever it is. -/
theorem badAccessesFault : Obligations.BadAccessesFault := by
  intro s e addr bytes v rest hwait hev he
  rw [step_event hwait hev]
  exact ⟨fun hlow hhigh hbad => hostEvent_fault he (windowOffset_busError hlow hhigh hbad),
    fun hout => hostEvent_fault he (windowOffset_outside bytes hout)⟩

/-- Settles O28: `hostEvent` refuses the event. -/
theorem secondHostIsRefused : Obligations.SecondHostIsRefused := by
  intro s rest hev hwait
  rw [step_event hwait hev]
  rfl

/-! ### Reads -/

theorem hostEvent_read (s : State) {off : Nat} (hoff : off < 0x400) (h4 : off % 4 = 0) :
    hostEvent (.read (s.params.base + off) 4) s = .next (countAccess (hostRead off s)) := by
  simp only [hostEvent, windowOffset_ok s.params off hoff h4]

theorem countAccess_of_idle {s : State} (h : s.pending = none) : countAccess s = s := by
  cases s
  cases h
  rfl

theorem countAccess_of_pending {s : State} {p : Pending} (h : s.pending = some p) :
    countAccess s = { s with pending := some { p with wait := p.wait - 1 } } := by
  simp only [countAccess, h, Option.map_some]

theorem hostRead_of_idle (off : Nat) {s : State} (h : s.pending = none) :
    hostRead off s =
      { s with
        returned :=
          { off := off, value := regValue s (regAt off), specified := !(s.unpolled && drawnWhileBusy (regAt off)) } :: s.returned
        unpolled := s.unpolled && decide (off ≠ 0x008) } := by
  have hb : s.busy = false := by simp [State.busy, h]
  simp [hostRead, readValue_idle s _ h, readSpecified, hb, regAt_eq_status]

theorem hostRead_of_busy (off : Nat) {s : State} (h : s.busy = true) :
    hostRead off s =
      { s with
        returned := { off := off, value := readValue s (regAt off), specified := false } :: s.returned
        draws := s.draws + 1 } := by
  simp [hostRead, readSpecified, h]

/-! ### Writes -/

theorem hostEvent_write (s : State) (r : Reg) (v : Word) :
    hostEvent (.write (s.params.base + regOffset r) 4 v) s
      = .next (if s.busy then countAccess (writeReg r v s) else writeReg r v s) := by
  simp only [hostEvent, windowOffset_ok s.params _ (regOffset_lt r) (regOffset_aligned r), hostWrite, regAt_regOffset]

theorem step_write_idle {s : State} {r : Reg} {v : Word} {rest : List Event} (h : s.pending = none)
    (hev : s.events = .write (s.params.base + regOffset r) 4 v :: rest) :
    step s = .next (writeReg r v { s with events := rest }) := by
  have hb : ({ s with events := rest } : State).busy = false := by simp [State.busy, h]
  rw [step_event (wait_ne_zero_of_idle h) hev, hostEvent_write { s with events := rest } r v, hb]
  rfl

theorem step_write_busy {s : State} {p : Pending} {r : Reg} {v : Word} {rest : List Event} (h : s.pending = some p)
    (hw : p.wait ≠ 0) (hev : s.events = .write (s.params.base + regOffset r) 4 v :: rest) :
    step s = .next (countAccess (writeReg r v { s with events := rest })) := by
  have hb : ({ s with events := rest } : State).busy = true := by simp [State.busy, h]
  rw [step_event (wait_ne_zero_of_pending h hw) hev, hostEvent_write { s with events := rest } r v, hb]
  rfl

end Sys2Proof.Machine
end

section
/-!
Reads of the host, idle and while a command is pending (spec/20_memory.md R66, R69, R73): O21, O22.
-/

namespace Sys2Proof.Machine

/-- Settles O21: an idle read records the register's value and is not counted against any latency. -/
theorem idleReadReturnsRegister : Obligations.IdleReadReturnsRegister := by
  intro s off rest hidle hoff h4 hev
  constructor
  · rw [step_event (wait_ne_zero_of_idle hidle) hev, hostEvent_read { s with events := rest } hoff h4,
      countAccess_of_idle (by exact hidle), hostRead_of_idle off (by exact hidle)]
    rfl
  · cases regAt off with
    | err =>
      simp only [regValue]
      cases s.err <;> rfl
    | param =>
      obtain ⟨hi, hr, hf, hh⟩ := paramWord_fields s.param
      exact ⟨hi, hr, hf, hh, paramWord_bit31 s.param⟩
    | id | caps | status | cmd | din | key | tag | dout | cs | cb | cm | cp | reserved => rfl

/-- Settles O22: each register is STATUS, or one R73 names, or reads as while idle. -/
theorem busyReadsExactRegisters : Obligations.BusyReadsExactRegisters := by
  intro s p off rest hp hw hoff h4 hev
  have hb : s.busy = true := by simp [State.busy, hp]
  refine ⟨readValue s (regAt off), ?_, ?_⟩
  · rw [step_event (wait_ne_zero_of_pending hp hw) hev, hostEvent_read { s with events := rest } hoff h4,
      countAccess_of_pending (by exact hp), hostRead_of_busy off (by exact hb)]
    rfl
  · cases regAt off with
    | status =>
      have hbit := readValue_busy_status s hb
      exact ⟨hbit 0, hbit 2, fun k h0 h2 => by rw [hbit, if_neg h0, if_neg h2]⟩
    | err | din | tag | dout | cs | cb | cm | cp => exact readValue_busy_drawn s _ hb rfl
    | id | caps | param | key | cmd | reserved => exact readValue_busy_exact s _ hb Reg.noConfusion rfl

end Sys2Proof.Machine
end

section
/-!
Writes of the host, idle and while a command is pending (spec/20_memory.md R67, R70 to R72): O23, O24, O25, O26.
-/

namespace Sys2Proof.Machine

/-! ### Idle -/

/-- Settles O26: CMD takes the word, and the latency is drawn. -/
theorem commandWriteIsAccepted : Obligations.CommandWriteIsAccepted := by
  intro s v rest hidle hev
  rw [step_write_idle (r := .cmd) hidle hev, writeReg, takeUnlessBusy_idle _ _ (by exact hidle)]
  rfl

/-- A word of a window other than the one written. `window` is the window's constructor of `Reg`. -/
theorem getElem_set_of_reg_ne {n : Nat} (window : Fin n → Reg) (w : Vector Word n) (v : Word) {j k : Fin n}
    (h : window j ≠ window k) : (w.set k v)[j] = w[j] :=
  Vector.getElem_set_ne _ _ fun hkj => h (congrArg window (Fin.ext hkj.symm))

/-- An idle write changes what no other register reads; a CMD write sets BUSY, which STATUS reads (R67, R70). -/
theorem regValue_writeReg_of_ne {s : State} (hidle : s.pending = none) {q r : Reg} (v : Word) (hq : q ≠ r)
    (hcmd : r = .cmd → q ≠ .status) : regValue (writeReg r v s) q = regValue s q := by
  cases r with
  | id | caps | err | dout | reserved => rfl
  | key k => rw [writeReg, takeUnlessBusy_idle _ _ hidle, regValue_setKey]
  | status =>
    cases q with
    | status => exact absurd rfl hq
    | _ => rfl
  | cmd =>
    rw [writeReg, takeUnlessBusy_idle _ _ hidle]
    cases q with
    | status => exact absurd rfl (hcmd rfl)
    | _ => rfl
  | param =>
    rw [writeReg, takeUnlessBusy_idle _ _ hidle]
    cases q with
    | param => exact absurd rfl hq
    | _ => rfl
  | cm =>
    rw [writeReg, takeUnlessBusy_idle _ _ hidle]
    cases q with
    | cm => exact absurd rfl hq
    | _ => rfl
  | cp =>
    rw [writeReg, takeUnlessBusy_idle _ _ hidle]
    cases q with
    | cp => exact absurd rfl hq
    | _ => rfl
  | din k =>
    rw [writeReg, takeUnlessBusy_idle _ _ hidle]
    cases q with
    | din j => exact getElem_set_of_reg_ne .din _ v hq
    | _ => rfl
  | tag k =>
    rw [writeReg, takeUnlessBusy_idle _ _ hidle]
    cases q with
    | tag j => exact getElem_set_of_reg_ne .tag _ v hq
    | _ => rfl
  | cs k =>
    rw [writeReg, takeUnlessBusy_idle _ _ hidle]
    cases q with
    | cs j => exact getElem_set_of_reg_ne .cs _ v hq
    | _ => rfl
  | cb k =>
    rw [writeReg, takeUnlessBusy_idle _ _ hidle]
    cases q with
    | cb j => exact getElem_set_of_reg_ne .cb _ v hq
    | _ => rfl

theorem writeReg_key {r : Reg} (v : Word) (s : State) (hr : ∀ k, r ≠ .key k) : (writeReg r v s).key = s.key := by
  cases r with
  | key k => exact absurd rfl (hr k)
  | id | caps | status | err | dout | reserved => rfl
  | cmd | param | din | tag | cs | cb | cm | cp =>
    simp only [writeReg, takeUnlessBusy]
    split <;> rfl

/-- Settles O23: `writeReg` stores the word, and every other register is left as it was. -/
theorem idleWriteReadsBack : Obligations.IdleWriteReadsBack := by
  intro s r v rest hidle hev
  obtain ⟨hlive, -, -, -, -, hparams, hevents, hreturned⟩ := writeReg_keeps r v { s with events := rest }
  refine ⟨_, step_write_idle hidle hev, ?_, fun q hq hcmd => ?_, hlive, hparams, writeReg_key v _, hevents, hreturned⟩
  · have taken (t : State) : takeUnlessBusy { s with events := rest } t = t := takeUnlessBusy_idle _ t hidle
    cases r with
    | din | tag | cs | cb => exact ⟨taken _, by rw [writeReg, taken]; exact Vector.getElem_set_self _⟩
    | cm | cp => exact ⟨taken _, by rw [writeReg, taken]; rfl⟩
    | param => exact ⟨taken _, by rw [writeReg, taken]; exact paramWord_paramOfWord v⟩
    | key => exact ⟨taken _, rfl⟩
    | cmd => exact ⟨by rw [writeReg, taken]; rfl, rfl⟩
    | id | caps | err | dout | reserved | status => rfl
  · exact regValue_writeReg_of_ne (s := { s with events := rest }) hidle v hq hcmd

/-! ### While a command is pending -/

/-- Settles O24: `takeUnlessBusy` drops every write but those `writeReg` performs or ignores at any time. -/
theorem busyWritesAreDropped : Obligations.BusyWritesAreDropped := by
  intro s p r v rest hp hw hev
  have hp' : ({ s with events := rest } : State).pending = some p := hp
  rw [step_write_busy hp hw hev]
  cases r with
  | id | caps | err | dout | reserved | status => rw [countAccess_of_pending (by exact hp)]; rfl
  | cmd | param | din | key | tag | cs | cb | cm | cp =>
    rw [writeReg, takeUnlessBusy_busy _ _ p hp', countAccess_of_pending (by exact hp)]

/-- What a pending command reads and the command itself are those of `s` (R72). -/
abbrev KeepsOperands (s t : State) : Prop :=
  t.param = s.param ∧ t.din = s.din ∧ t.key = s.key ∧ t.tag = s.tag ∧ t.staging = s.staging ∧ t.live = s.live
  ∧ t.pending.map Pending.cw = s.pending.map Pending.cw

theorem writeReg_keepsOperands (r : Reg) (v : Word) {s : State} {p : Pending} (hp : s.pending = some p) :
    KeepsOperands s (writeReg r v s) := by
  cases r with
  | id | caps | err | dout | reserved | status => exact ⟨rfl, rfl, rfl, rfl, rfl, rfl, rfl⟩
  | cmd | param | din | key | tag | cs | cb | cm | cp =>
    rw [writeReg, takeUnlessBusy_busy _ _ p hp]
    exact ⟨rfl, rfl, rfl, rfl, rfl, rfl, rfl⟩

theorem countAccess_keepsOperands {s t : State} (h : KeepsOperands s t) : KeepsOperands s (countAccess t) := by
  obtain ⟨hparam, hdin, hkey, htag, hstaging, hlive, hcw⟩ := h
  refine ⟨hparam, hdin, hkey, htag, hstaging, hlive, ?_⟩
  rw [← hcw, countAccess_pending, Option.map_map]
  rfl

theorem hostEvent_keepsOperands {e : Event} {s t : State} {p : Pending} (hp : s.pending = some p) (he : e ≠ .reset)
    (h : hostEvent e s = .next t) : KeepsOperands s t := by
  have read_keeps (off : Nat) : KeepsOperands s (countAccess (hostRead off s)) :=
    countAccess_keepsOperands ⟨rfl, rfl, rfl, rfl, rfl, rfl, rfl⟩
  cases e with
  | read addr bytes =>
    simp only [hostEvent] at h
    split at h <;> cases h
    exact read_keeps _
  | write addr bytes v =>
    simp only [hostEvent] at h
    split at h <;> cases h
    have hw := writeReg_keepsOperands (regAt ‹Nat›) v hp
    split
    · exact countAccess_keepsOperands hw
    · exact hw
  | poll =>
    simp only [hostEvent] at h
    cases h
    split <;> exact read_keeps 0x008
  | reset => exact absurd rfl he
  | otherHost => cases h

/-- Settles O25: every event but a reset keeps the operands and the command. -/
theorem operandsConstantWhilePending : Obligations.OperandsConstantWhilePending := by
  intro s t p hp h hreset
  obtain ⟨-, rfl⟩ | ⟨e, rest, hev, h⟩ := hostStep_next h
  · exact ⟨rfl, rfl, rfl, rfl, rfl, rfl, by rw [hp]; rfl⟩
  · have he : e ≠ .reset := fun he => hreset rest (he ▸ hev)
    have hkeeps := hostEvent_keepsOperands (s := { s with events := rest }) hp he h
    rwa [hp] at hkeeps

end Sys2Proof.Machine
end

section
/-!
Command words by their fields (spec/30_encoding.md R90 to R97, R99): which words a row of the opcode table selects, and the two
directions of decoding: O1 to O6.
-/

namespace Sys2Proof

/-! ### Words and their fields -/

/-- A command word is its five fields: OP, ARG, bit 15, BK and bits 31:19 (R90). -/
theorem word_eq_iff_fields {v w : Word} :
    v = w ↔ opField v = opField w ∧ argField v = argField w ∧ v.getLsbD 15 = w.getLsbD 15 ∧ bkField v = bkField w
      ∧ v >>> 19 = w >>> 19 := by
  refine ⟨by rintro rfl; exact ⟨rfl, rfl, rfl, rfl, rfl⟩, fun ⟨hop, harg, h15, hbk, hhigh⟩ => ?_⟩
  apply BitVec.eq_of_getLsbD_eq
  intro i hi
  by_cases h8 : i < 8
  · simpa [opField, h8] using congrArg (·.getLsbD i) hop
  by_cases hlt : i < 15
  · simpa [argField, show i - 8 < 7 by omega, show 8 + (i - 8) = i by omega] using congrArg (·.getLsbD (i - 8)) harg
  by_cases heq : i = 15
  · exact heq ▸ h15
  by_cases h19 : i < 19
  · simpa [bkField, show i - 16 < 3 by omega, show 16 + (i - 16) = i by omega] using congrArg (·.getLsbD (i - 16)) hbk
  · simpa [show 19 + (i - 19) = i by omega] using congrArg (·.getLsbD (i - 19)) hhigh

/-- The reserved bits of a word, 15 and 31:19, are 0 (R90). -/
abbrev ReservedZero (cw : Word) : Prop := cw.getLsbD 15 = false ∧ cw >>> 19 = 0

theorem commandWord_fields {cw : Word} (h : ReservedZero cw) :
    commandWord (opField cw) (argField cw) (bkField cw) = cw := by
  obtain ⟨h15, hhigh⟩ := h
  obtain ⟨w15, whigh⟩ := Laws.FixedBits.commandWord_reserved (opField cw) (argField cw) (bkField cw)
  exact word_eq_iff_fields.mpr
    ⟨opField_commandWord .., argField_commandWord .., w15.trans h15.symm, bkField_commandWord .., whigh.trans hhigh.symm⟩

/-! ### The rows of the opcode table -/

/-- OP of the words a row selects (R92). -/
def Opcode.code : Opcode → BitVec 8
  | .nop => 0x00
  | .init => 0x01
  | .update => 0x02
  | .final => 0x03
  | .macInit => 0x04
  | .verify => 0x05
  | .ctxSave => 0x06
  | .ctxLoad => 0x07
  | .zeroize => 0x08

/-- Whether ARG is an operand of the command (R91). -/
def Opcode.usesArg (op : Opcode) : Bool := op ∈ [.update, .macInit, .verify]

/-- Whether BK is an operand of the command (R91). -/
def Opcode.usesBk (op : Opcode) : Bool := op ∈ [.init, .macInit]

/-- What a row of R93 asks of a word, field by field: its code in OP, and 0 in the reserved bits and in each operand field the
command does not use. -/
abbrev Opcode.Matches (op : Opcode) (cw : Word) : Prop :=
  opField cw = op.code ∧ ReservedZero cw ∧ (op.usesArg = false → argField cw = 0) ∧ (op.usesBk = false → bkField cw = 0)

theorem fields_and (v w : Word) :
    opField (v &&& w) = opField v &&& opField w ∧ argField (v &&& w) = argField v &&& argField w
      ∧ bkField (v &&& w) = bkField v &&& bkField w :=
  ⟨BitVec.extractLsb'_and, BitVec.extractLsb'_and, BitVec.extractLsb'_and⟩

/-- The masks of R93 keep OP and the reserved bits whole, and drop exactly the operand fields the command uses. -/
theorem mask_fields {r : OpcodeRow} (hr : r ∈ opcodeRows) :
    opField r.mask = BitVec.allOnes 8 ∧ argField r.mask = (if r.op.usesArg then 0 else BitVec.allOnes 7)
      ∧ r.mask.getLsbD 15 = true ∧ bkField r.mask = (if r.op.usesBk then 0 else BitVec.allOnes 3)
      ∧ r.mask >>> 19 = BitVec.allOnes 32 >>> 19 := by
  revert r; decide

theorem pattern_fields {r : OpcodeRow} (hr : r ∈ opcodeRows) :
    opField r.pattern = r.op.code ∧ argField r.pattern = 0 ∧ r.pattern.getLsbD 15 = false ∧ bkField r.pattern = 0
      ∧ r.pattern >>> 19 = 0 := by
  revert r; decide

theorem and_operandMask_eq_zero {n : Nat} (used : Bool) (x : BitVec n) :
    x &&& (if used then 0 else BitVec.allOnes n) = 0 ↔ (used = false → x = 0) := by
  cases used
  · rw [if_neg Bool.false_ne_true, BitVec.and_allOnes]; simp
  · simp

theorem selects_iff_matches {r : OpcodeRow} (hr : r ∈ opcodeRows) (cw : Word) :
    r.selects cw = true ↔ r.op.Matches cw := by
  obtain ⟨mop, marg, m15, mbk, mhigh⟩ := mask_fields hr
  obtain ⟨pop, parg, p15, pbk, phigh⟩ := pattern_fields hr
  obtain ⟨aop, aarg, abk⟩ := fields_and cw r.mask
  have hhigh : (cw &&& r.mask) >>> 19 = cw >>> 19 := by
    rw [BitVec.ushiftRight_and_distrib, mhigh, ← BitVec.ushiftRight_and_distrib, BitVec.and_allOnes]
  rw [OpcodeRow.selects, beq_iff_eq, word_eq_iff_fields, aop, aarg, abk, BitVec.getLsbD_and, hhigh, mop, marg, m15, mbk,
    pop, parg, p15, pbk, phigh, BitVec.and_allOnes, Bool.and_true, and_operandMask_eq_zero,
    and_operandMask_eq_zero]
  tauto

theorem row_eq_of_code_eq : ∀ r ∈ opcodeRows, ∀ q ∈ opcodeRows, r.op.code = q.op.code → r = q := by decide

/-- Settles O4: a row is fixed by its code, and a selected word has the code in OP. -/
theorem atMostOneRowSelects : Obligations.AtMostOneRowSelects := by
  intro cw r q hr hq hrs hqs
  obtain ⟨hrop, -⟩ := (selects_iff_matches hr cw).mp hrs
  obtain ⟨hqop, -⟩ := (selects_iff_matches hq cw).mp hqs
  exact row_eq_of_code_eq r hr q hq (hrop.symm.trans hqop)

theorem exists_row (op : Opcode) : ∃ r ∈ opcodeRows, r.op = op := by
  cases op <;> decide

/-! ### The decoder -/

/-- A word that meets a row's conditions is decoded by that row (R97). -/
theorem decode_of_matches (hasZeroize : Bool) {op : Opcode} {cw : Word} (h : op.Matches cw) :
    decode hasZeroize cw = assemble hasZeroize op (argField cw) (bkField cw) := by
  obtain ⟨r, hr, rfl⟩ := exists_row op
  have hsel : r.selects cw = true := (selects_iff_matches hr cw).mpr h
  cases hfind : opcodeRows.find? (·.selects cw) with
  | none => exact absurd hsel (List.find?_eq_none.mp hfind r hr)
  | some q =>
    have hqsel : q.selects cw = true := List.find?_some (p := fun r : OpcodeRow => r.selects cw) hfind
    obtain rfl := atMostOneRowSelects cw q r (List.mem_of_find?_eq_some hfind) hr hqsel hsel
    simp only [decode, hfind]

/-- A word that meets no row's conditions is refused (R97). -/
theorem decode_of_no_match (hasZeroize : Bool) {cw : Word} (h : ∀ op : Opcode, ¬ op.Matches cw) :
    ∃ e, decode hasZeroize cw = .error e := by
  have hfind : opcodeRows.find? (·.selects cw) = none :=
    List.find?_eq_none.mpr fun r hr hsel => h r.op ((selects_iff_matches hr cw).mp hsel)
  rw [decode, hfind]
  exact ⟨_, rfl⟩

theorem Selector.toField_of_ofField {bk : BitVec 3} {sel : Selector} (h : Selector.ofField bk = some sel) :
    sel.toField = bk := by
  have hall : ∀ bk : BitVec 3, (Selector.ofField bk).all (fun sel => sel.toField = bk) = true := by decide
  simpa [h] using hall bk

theorem Selector.ofField_eq_none_iff (bk : BitVec 3) : Selector.ofField bk = none ↔ 6 ≤ bk.toNat := by
  revert bk; decide

/-- The opcode of a command (R92). -/
def Instr.opcode : Instr → Opcode
  | .nop => .nop
  | .init _ => .init
  | .update _ => .update
  | .final => .final
  | .macInit _ _ => .macInit
  | .verify _ => .verify
  | .ctxSave => .ctxSave
  | .ctxLoad => .ctxLoad
  | .zeroize => .zeroize

theorem commandWord_matches {op : Opcode} {arg : BitVec 7} {bk : BitVec 3} (harg : op.usesArg = false → arg = 0)
    (hbk : op.usesBk = false → bk = 0) : op.Matches (commandWord op.code arg bk) := by
  rw [Opcode.Matches, opField_commandWord, argField_commandWord, bkField_commandWord]
  exact ⟨rfl, Laws.FixedBits.commandWord_reserved op.code arg bk, harg, hbk⟩

theorem encode_matches (i : Instr) : i.opcode.Matches (encode i) := by
  cases i with
  | nop | final | ctxSave | ctxLoad | zeroize => exact commandWord_matches (fun _ => rfl) fun _ => rfl
  | init bk => exact commandWord_matches (fun _ => rfl) nofun
  | update len | verify len => exact commandWord_matches nofun fun _ => rfl
  | macInit keylen bk => exact commandWord_matches nofun nofun

/-- The operand checks accept the fields of a legal command's word (R97). -/
theorem assemble_encode {hasZeroize : Bool} {i : Instr} (h : i.wellFormed hasZeroize = true) :
    assemble hasZeroize i.opcode (argField (encode i)) (bkField (encode i)) = .ok i := by
  cases i with
  | nop | final | ctxSave | ctxLoad => rfl
  | init | macInit => simp [encode, Instr.opcode, assemble]
  | update | verify => simpa [encode, Instr.opcode, assemble, Instr.wellFormed] using h
  | zeroize => simpa [Instr.opcode, assemble, Instr.wellFormed] using h

/-- Settles O1: the word of a command meets the conditions of its row, and the operand checks pass. -/
theorem decodeOfEncodeIsIdentity : Obligations.DecodeOfEncodeIsIdentity := by
  intro hasZeroize i hi
  rw [decode_of_matches hasZeroize (encode_matches i), assemble_encode hi]

/-- What the operand checks accept is a legal command of the row, whose word is made of the code and the operands used (R97). -/
theorem assemble_eq_ok {hasZeroize : Bool} {op : Opcode} {arg : BitVec 7} {bk : BitVec 3} {i : Instr}
    (h : assemble hasZeroize op arg bk = .ok i) (harg : op.usesArg = false → arg = 0) (hbk : op.usesBk = false → bk = 0) :
    encode i = commandWord op.code arg bk ∧ i.wellFormed hasZeroize = true := by
  cases op with
  | nop | final | ctxSave | ctxLoad =>
    cases h
    rw [harg rfl, hbk rfl]
    exact ⟨rfl, rfl⟩
  | init =>
    simp only [assemble] at h
    split at h <;> cases h
    rename_i hsel
    rw [harg rfl, encode, Selector.toField_of_ofField hsel]
    exact ⟨rfl, rfl⟩
  | macInit =>
    simp only [assemble] at h
    split at h <;> cases h
    rename_i hsel
    rw [encode, Selector.toField_of_ofField hsel]
    exact ⟨rfl, rfl⟩
  | update | verify =>
    simp only [assemble] at h
    split at h <;> cases h
    rename_i hle
    rw [hbk rfl]
    exact ⟨rfl, decide_eq_true (Nat.not_lt.mp hle)⟩
  | zeroize =>
    cases hasZeroize <;> cases h
    rw [harg rfl, hbk rfl]
    exact ⟨rfl, rfl⟩

/-- Settles O2: a word that a row selects is made of its code and operands alone, as the word of the command is. -/
theorem encodeOfDecodeIsIdentity : Obligations.EncodeOfDecodeIsIdentity := by
  intro hasZeroize cw i h
  by_cases hmatch : ∃ op : Opcode, op.Matches cw
  · obtain ⟨op, hm⟩ := hmatch
    obtain ⟨hop, hres, harg, hbk⟩ := id hm
    rw [decode_of_matches hasZeroize hm] at h
    obtain ⟨henc, hwf⟩ := assemble_eq_ok h harg hbk
    exact ⟨by rw [henc, ← hop, commandWord_fields hres], hwf⟩
  · obtain ⟨e, he⟩ := decode_of_no_match hasZeroize (not_exists.mp hmatch)
    cases h.symm.trans he

/-! ### Illegal words -/

/-- Each value of OP is a command's code or reserved (R92). -/
theorem code_or_reserved (c : BitVec 8) : (∃ op : Opcode, c = op.code) ∨ 9 ≤ c.toNat := by
  rcases Nat.lt_or_ge c.toNat 9 with hlt | hge
  · have hc : c = BitVec.ofNat 8 c.toNat := by simp
    generalize c.toNat = n at hlt hc
    interval_cases n
    exacts [.inl ⟨.nop, hc⟩, .inl ⟨.init, hc⟩, .inl ⟨.update, hc⟩, .inl ⟨.final, hc⟩, .inl ⟨.macInit, hc⟩,
      .inl ⟨.verify, hc⟩, .inl ⟨.ctxSave, hc⟩, .inl ⟨.ctxLoad, hc⟩, .inl ⟨.zeroize, hc⟩]
  · exact .inr hge

/-- The codes R95 names, and the commands they belong to. -/
theorem code_toNat (op : Opcode) :
    ¬ 9 ≤ op.code.toNat ∧ (op.code.toNat ∉ [2, 4, 5] ↔ op.usesArg = false) ∧ (op.code.toNat ∉ [1, 4] ↔ op.usesBk = false)
      ∧ (op.code.toNat = 2 ↔ op = .update) ∧ (op.code.toNat = 5 ↔ op = .verify) ∧ (op.code.toNat = 8 ↔ op = .zeroize) := by
  cases op <;> decide

/-- The operand checks that can fail: a backend selector, LEN, TAGLEN, and the capability ZEROIZE needs (R97). -/
theorem assemble_error_iff (hasZeroize : Bool) (op : Opcode) (arg : BitVec 7) (bk : BitVec 3) :
    (∃ e, assemble hasZeroize op arg bk = .error e) ↔
      (¬ op.usesBk = false ∧ 6 ≤ bk.toNat) ∨ (op = .update ∧ 32 < arg.toNat) ∨ (op = .verify ∧ 64 < arg.toNat)
        ∨ (op = .zeroize ∧ hasZeroize = false) := by
  cases op with
  | nop | final | ctxSave | ctxLoad => simp [assemble, Opcode.usesBk]
  | init | macInit =>
    rw [← Selector.ofField_eq_none_iff]
    cases hsel : Selector.ofField bk <;> simp [assemble, hsel, Opcode.usesBk]
  | update | verify =>
    simp only [assemble]
    split <;> simp [Opcode.usesBk, *]
  | zeroize => cases hasZeroize <;> simp [assemble, Opcode.usesBk]

/-- For a word with a command's code in OP, R95 lists what the command's row refuses and what its operand checks refuse. -/
theorem illegalWord_iff (hasZeroize : Bool) {op : Opcode} {cw : Word} (hop : opField cw = op.code) :
    Machine.IllegalWord hasZeroize cw ↔
      ¬ op.Matches cw ∨ ∃ e, assemble hasZeroize op (argField cw) (bkField cw) = .error e := by
  obtain ⟨h9, harg, hbk, h2, h5, h8⟩ := code_toNat op
  have h15 : cw.getLsbD 15 = true ↔ ¬ cw.getLsbD 15 = false := by simp
  have hmem : op.code.toNat ∈ [1, 4] ↔ ¬ op.usesBk = false := by rw [← hbk, not_not]
  rw [assemble_error_iff, Machine.IllegalWord, Opcode.Matches, ReservedZero, hop, harg, hbk, hmem, h2, h5, h8, h15]
  simp only [h9, not_and_or, Classical.not_imp, or_assoc, not_true_eq_false, false_or, ne_eq]

theorem Opcode.code_injective : Function.Injective Opcode.code := by
  intro op op' h
  obtain ⟨r, hr, rfl⟩ := exists_row op
  obtain ⟨q, hq, rfl⟩ := exists_row op'
  rw [row_eq_of_code_eq r hr q hq h]

/-- Only the row of the code in OP can select a word, so the decoder refuses what that row or its operand checks refuse (R97). -/
theorem decode_error_iff (hasZeroize : Bool) {op : Opcode} {cw : Word} (hop : opField cw = op.code) :
    (∃ e, decode hasZeroize cw = .error e) ↔
      ¬ op.Matches cw ∨ ∃ e, assemble hasZeroize op (argField cw) (bkField cw) = .error e := by
  by_cases hm : op.Matches cw
  · rw [decode_of_matches hasZeroize hm, or_iff_right (not_not.mpr hm)]
  · refine iff_of_true (decode_of_no_match hasZeroize fun op' hm' => ?_) (.inl hm)
    obtain ⟨hop', -⟩ := id hm'
    obtain rfl := Opcode.code_injective (hop.symm.trans hop')
    exact hm hm'

/-- Settles O5: R95's conditions are the failures of the row and of its operand checks, code by code. -/
theorem illegalWordsAreExactlyThoseListed : Obligations.IllegalWordsAreExactlyThoseListed := by
  intro hasZeroize cw
  obtain ⟨op, hop⟩ | hreserved := code_or_reserved (opField cw)
  · rw [decode_error_iff hasZeroize hop, illegalWord_iff hasZeroize hop]
  · refine iff_of_true (decode_of_no_match hasZeroize fun op ⟨hop, _⟩ => ?_) (.inl hreserved)
    obtain ⟨hcode, -⟩ := code_toNat op
    exact hcode (hop ▸ hreserved)

end Sys2Proof

namespace Sys2Proof.Machine

/-- Settles O6: the engine's step completes a refused word with ILLEGAL_COMMAND. -/
theorem illegalWordChangesOnlyFlags : Obligations.IllegalWordChangesOnlyFlags := by
  intro s p hp hmove hillegal
  obtain ⟨e, he⟩ := (illegalWordsAreExactlyThoseListed s.params.hasZeroize p.cw).mpr hillegal
  rw [step_engine s p hp hmove]
  obtain ⟨i, hi, -⟩ | ⟨-, -, hstep⟩ := engineStep_cases p.cw s
  · cases he.symm.trans hi
  · rw [hstep]
    simp [complete]

/-- Settles O3: each word is decoded by evaluation. -/
theorem knownWordsDecode : Obligations.KnownWordsDecode := by
  unfold Obligations.KnownWordsDecode
  decide

end Sys2Proof.Machine
end

section
/-!
A poll of a pending command ends (spec/30_encoding.md R100, spec/60_exceptions.md R206, spec/70_reset_and_hazards.md R243): O9.
-/

namespace Sys2Proof.Machine

theorem core_run_succ {s t : State} (k : Nat) (h : step s = .next t) : core.run (k + 1) s = core.run k t := by
  have hcore : core.step s = .next t := h
  simp only [Host.Core.run, hcore]

/-! ### The steps of a poll -/

/-- A poll's read while BUSY = 1: the poll is still to come, and R243 does not count the value. -/
theorem step_poll_busy {s : State} {p : Pending} {rest : List Event} (hp : s.pending = some p) (hw : p.wait ≠ 0)
    (hev : s.events = .poll :: rest) :
    ∃ t, step s = .next t ∧ t.pending = some { p with wait := p.wait - 1 } ∧ t.events = .poll :: rest
      ∧ observedReads t = observedReads s := by
  have hb : ({ s with events := rest } : State).busy = true := by rw [State.busy, hp]; rfl
  have hbit : (readValue { s with events := rest } .status).getLsbD 0 = true := readValue_busy_status _ hb 0
  rw [step_event (wait_ne_zero_of_pending hp hw) hev, hostEvent, hbit, hostRead_of_busy 0x008 hb]
  exact ⟨_, rfl, congrArg (Option.map _) hp, rfl, rfl⟩

/-- A STATUS read that returns BUSY = 0 counts with all its bits and ends the wait of R235 (R243, log 23). -/
theorem hostRead_status_idle {s : State} (h : s.pending = none) :
    hostRead 0x008 s =
      { s with
        returned := { off := 0x008, value := regValue s .status, specified := true } :: s.returned
        unpolled := false } := by
  simp [hostRead_of_idle 0x008 h, (regAt_eq_status 0x008).mpr rfl, drawnWhileBusy]

/-- A poll's read while BUSY = 0: the poll is left, and R243 counts the value. -/
theorem step_poll_idle {s : State} {rest : List Event} (hp : s.pending = none) (hev : s.events = .poll :: rest) :
    step s = .next
      { s with
        events := rest
        returned := { off := 0x008, value := regValue s .status, specified := true } :: s.returned
        unpolled := false } := by
  have hread : readValue { s with events := rest } .status = regValue s .status := readValue_idle _ _ hp
  have hbit : (regValue s .status).getLsbD 0 = false := by rw [regValue, statusWord_bit0, State.busy, hp]; rfl
  rw [step_event (wait_ne_zero_of_idle hp) hev, hostEvent, hread, hbit, hostRead_status_idle (by exact hp),
    countAccess_of_idle (by exact hp)]
  rfl

/-- The engine's step completes the command and uses up nothing of the outside (R206). -/
theorem engineStep_completes (cw : Word) (s : State) :
    ∃ t, engineStep cw s = .next t ∧ t.pending = none ∧ t.events = s.events ∧ t.returned = s.returned := by
  obtain ⟨i, -, he⟩ | ⟨e, -, he⟩ := engineStep_cases cw s
  · obtain ⟨code, eq, u, hu, ⟨-, -, -, -, -, hev, hret, -, -⟩, -, -⟩ := exec_shape i s
    exact ⟨_, he.trans hu, rfl, hev, hret⟩
  · exact ⟨_, he, rfl, rfl, rfl⟩

/-! ### The loop -/

/-- Within `n` steps from `s` the command has completed and the poll before `rest` has been left, its last read alone counted. -/
def PollLeftWithin (n : Nat) (rest : List Event) (s : State) : Prop :=
  ∃ k t, k ≤ n ∧ core.run k s = .next t ∧ t.pending = none ∧ t.events = rest ∧ t.unpolled = false
    ∧ observedReads t = { off := 0x008, value := regValue t .status, specified := true } :: observedReads s

theorem PollLeftWithin.of_step {n : Nat} {rest : List Event} {s u : State} (hstep : step s = .next u)
    (hreads : observedReads u = observedReads s) (h : PollLeftWithin n rest u) : PollLeftWithin (n + 1) rest s := by
  obtain ⟨k, t, hk, hrun, hpending, hev, hpolled, hobs⟩ := h
  exact ⟨k + 1, t, Nat.succ_le_succ hk, (core_run_succ k hstep).trans hrun, hpending, hev, hpolled, hreads ▸ hobs⟩

theorem pollLeftWithin_idle {s : State} {rest : List Event} (hp : s.pending = none) (hev : s.events = .poll :: rest) :
    PollLeftWithin 1 rest s :=
  ⟨1, _, Nat.le_refl 1, core_run_succ 0 (step_poll_idle hp hev), hp, rfl, rfl, rfl⟩

/-- Each read while BUSY = 1 takes one from the wait; at 0 the engine steps, and the next read leaves the poll. -/
theorem pollLeftWithin_pending {w : Nat} {s : State} {p : Pending} {rest : List Event} (hp : s.pending = some p)
    (hw : p.wait = w) (hev : s.events = .poll :: rest) : PollLeftWithin (w + 2) rest s := by
  induction w generalizing s p with
  | zero =>
    obtain ⟨u, hu, hidle, huev, hret⟩ := engineStep_completes p.cw s
    exact .of_step ((step_engine s p hp (.inl hw)).trans hu) (congrArg (List.filter HostRead.specified) hret)
      (pollLeftWithin_idle hidle (huev.trans hev))
  | succ w ih =>
    obtain ⟨u, hu, hpending, huev, hreads⟩ := step_poll_busy hp (by omega) hev
    exact .of_step hu hreads (ih hpending (by simp [hw]) huev)

/-- Settles O9, by induction on the wait of the pending command. -/
theorem pollingEnds : Obligations.PollingEnds := by
  intro s p rest hp hev
  obtain ⟨k, t, hk, hrun, hpending, htev, hpolled, hobs⟩ := pollLeftWithin_pending hp rfl hev
  exact ⟨k, t, hk, hrun, hpending, htev, hpolled, fun hrest => ⟨htev.trans hrest, hpolled, hpending⟩, hobs⟩

end Sys2Proof.Machine
end

section
/-!
The permutation core: the words SUBROUND leaves, ROUND as a bijection, ROUNDS as an iteration and the bytes of OUT
(spec/41_permutation_core.md R110 to R118): O31 to O34.
-/

namespace Sys2Proof.Machine

/-! ### The lanes of a subround -/

@[simp] theorem permuteLanes_getElem (m : Fin 16) (x : Half) (i : Fin 16) :
    (permuteLanes m x)[i.val] = x[(i ^^^ m).val] := by simp [permuteLanes]

@[simp] theorem addLanes_getElem (x y : Half) (i : Nat) (h : i < 16) : (addLanes x y)[i] = x[i] + y[i] := by
  simp [addLanes]

@[simp] theorem xorLanes_getElem (x y : Half) (i : Nat) (h : i < 16) : (xorLanes x y)[i] = x[i] ^^^ y[i] := by
  simp [xorLanes]

@[simp] theorem rotlLanes_getElem (x : Half) (r i : Nat) (h : i < 16) : (rotlLanes x r)[i] = rotl32 x[i] r := by
  simp [rotlLanes]

/-- The half A after SUBROUND: the permuted and rotated A, xored with the sum of the halves (R112). -/
theorem halfA_subround (r : Nat) (m1 m2 : Fin 16) (s : CoreState) :
    halfA (subround r m1 m2 s)
      = xorLanes (rotlLanes (permuteLanes m1 (halfA s)) r) (addLanes (halfB s) (halfA s)) :=
  halfA_joinHalves ..

/-- The half B after SUBROUND: the permuted sum of the halves (R112). -/
theorem halfB_subround (r : Nat) (m1 m2 : Fin 16) (s : CoreState) :
    halfB (subround r m1 m2 s) = permuteLanes m2 (addLanes (halfB s) (halfA s)) :=
  halfB_joinHalves ..

/-- Settles O31: word `i` is lane `i` of the half A, word `16 + i` lane `i` of the half B. -/
theorem subroundWords : Obligations.SubroundWords := by
  intro r m1 m2 i s
  constructor
  · rw [← halfA_getElem _ i.val i.isLt, halfA_subround]
    simp
  · rw [← halfB_getElem _ i.val i.isLt, halfB_subround]
    simp

/-! ### SUBROUND and ROUND undone -/

/-- A rotation by `r` is undone by the rotation by the rest of the word (R110). -/
theorem rotl32_rotl32 (x : Word) {r : Nat} (h : r ≤ 32) : rotl32 (rotl32 x r) (32 - r) = x := by
  apply BitVec.eq_of_getLsbD_eq
  intro i hi
  have past : x.getLsbD (32 - r + (r + i)) = false := BitVec.getLsbD_of_ge _ _ (by omega)
  simp only [rotl32, Nat.sub_sub_self h, BitVec.getLsbD_or, BitVec.getLsbD_shiftLeft, BitVec.getLsbD_ushiftRight]
  by_cases hlow : i < 32 - r
  · simp [hlow, hi, past, show r + i < 32 by omega]
  · simp [hlow, hi, past, show i - (32 - r) < r by omega, show 32 - r + (i - (32 - r)) = i by omega,
      show i - (32 - r) < 32 by omega]

theorem rotlLanes_rotlLanes (x : Half) {r : Nat} (h : r ≤ 32) : rotlLanes (rotlLanes x r) (32 - r) = x := by
  ext1 i hi
  simp [rotl32_rotl32 _ h]

theorem rotlLanes_rotlLanes' (x : Half) {r : Nat} (h : r ≤ 32) : rotlLanes (rotlLanes x (32 - r)) r = x := by
  have := rotlLanes_rotlLanes x (Nat.sub_le 32 r)
  rwa [Nat.sub_sub_self h] at this

theorem xorLanes_xorLanes (x y : Half) : xorLanes (xorLanes x y) y = x := by
  ext1 i hi
  simp

/-- Lane-wise subtraction modulo 2^32, which undoes `addLanes`. -/
def subLanes (x y : Half) : Half := Vector.ofFn fun i => x[i] - y[i]

theorem subLanes_addLanes (x y : Half) : subLanes (addLanes x y) y = x := by
  ext1 i hi
  simp [subLanes]

theorem addLanes_subLanes (x y : Half) : addLanes (subLanes x y) y = x := by
  ext1 i hi
  simp [subLanes]

/-- The steps of SUBROUND undone, the last one first (R113): B permuted back, xored off A, A rotated and permuted back, and
subtracted from B. -/
def unsubround (r : Nat) (m1 m2 : Fin 16) (s : CoreState) : CoreState :=
  let sum := permuteLanes m2 (halfB s)
  let a := permuteLanes m1 (rotlLanes (xorLanes (halfA s) sum) (32 - r))
  joinHalves a (subLanes sum a)

theorem unsubround_subround {r : Nat} (h : r ≤ 32) (m1 m2 : Fin 16) (s : CoreState) :
    unsubround r m1 m2 (subround r m1 m2 s) = s := by
  simp only [unsubround, halfA_subround, halfB_subround, permuteLanes_permuteLanes, xorLanes_xorLanes,
    rotlLanes_rotlLanes _ h, subLanes_addLanes, joinHalves_halfA]

theorem subround_unsubround {r : Nat} (h : r ≤ 32) (m1 m2 : Fin 16) (s : CoreState) :
    subround r m1 m2 (unsubround r m1 m2 s) = s := by
  simp only [subround, unsubround, halfA_joinHalves, halfB_joinHalves, permuteLanes_permuteLanes, addLanes_subLanes,
    rotlLanes_rotlLanes' _ h, xorLanes_xorLanes, joinHalves_halfA]

theorem subround_bijective {r : Nat} (h : r ≤ 32) (m1 m2 : Fin 16) : Function.Bijective (subround r m1 m2) :=
  Function.bijective_iff_has_inverse.mpr
    ⟨unsubround r m1 m2, unsubround_subround h m1 m2, subround_unsubround h m1 m2⟩

/-- SUBROUND leaves the all-zero state as it is (R112). -/
theorem subround_zeroWords (r : Nat) (m1 m2 : Fin 16) : subround r m1 m2 (zeroWords 32) = zeroWords 32 := by
  ext1 i hi
  by_cases h : i < 16
  · obtain ⟨hA, -⟩ := subroundWords r m1 m2 ⟨i, h⟩ (zeroWords 32)
    exact hA.trans (by simp [zeroWords, rotl32])
  · obtain ⟨k, rfl⟩ := Nat.exists_eq_add_of_le (Nat.le_of_not_lt h)
    obtain ⟨-, hB⟩ := subroundWords r m1 m2 ⟨k, by omega⟩ (zeroWords 32)
    exact hB.trans (by simp [zeroWords])

/-- Settles O32: ROUND is two subrounds, each a bijection that leaves the all-zero state as it is. -/
theorem roundIsBijective : Obligations.RoundIsBijective := by
  have hround : cubeRound = subround 11 4 1 ∘ subround 7 8 2 := rfl
  constructor
  · rw [hround]
    exact (subround_bijective (by omega) 4 1).comp (subround_bijective (by omega) 8 2)
  · simp only [cubeRound, subround_zeroWords]

/-! ### ROUNDS -/

/-- ROUNDS(n) is the n-fold iteration of ROUND (R114). -/
theorem rounds_eq_iterate (n : Nat) (s : CoreState) : rounds n s = cubeRound^[n] s := by
  induction n generalizing s with
  | zero => rfl
  | succ n ih => rw [rounds_succ, ih, Function.iterate_succ_apply]

/-- Settles O33: `rounds_eq_iterate`, and the example by evaluation. -/
theorem roundsRepeatRound : Obligations.RoundsRepeatRound :=
  ⟨rounds_eq_iterate, rounds_zero, by decide⟩

/-! ### OUT -/

/-- Byte `j` of a window is byte `j mod 4` of its word `j div 4` (R63). -/
theorem winByte_eq_byteOf {k : Nat} (w : Vector Word k) (j : Nat) (h : j / 4 < k) :
    winByte w j = byteOf w[j / 4] (j % 4) := by simp [winByte, h]

theorem coreOut_getElem (s : CoreState) (h : BitVec 7) (j : Nat) (hj : j < (coreOut s h).length) :
    (coreOut s h)[j] = winByte s j := by
  rw [← coreOut_getD s h j (by simpa using hj), List.getD_eq_getElem]

/-- OUT of at most 64 bytes is read from the words of A alone (R118). -/
theorem coreOut_eq_of_halfA_eq {s t : CoreState} {h : BitVec 7} (hh : h.toNat ≤ 64) (hA : halfA s = halfA t) :
    coreOut s h = coreOut t h := by
  refine List.ext_getElem (by simp) fun j hs ht => ?_
  have hj : j < h.toNat := by simpa using hs
  have hword : s[j / 4] = t[j / 4] := by
    simpa using congrArg (fun a : Half => a[j / 4]) hA
  rw [coreOut_getElem, coreOut_getElem, winByte_eq_byteOf s j (by omega), winByte_eq_byteOf t j (by omega), hword]

/-- Settles O34: OUT byte by byte, from the half A alone up to 64 bytes, and the example by evaluation. -/
theorem outputBytes : Obligations.OutputBytes := by
  refine ⟨fun s h => ⟨coreOut_length s h, fun j hj => ?_, fun t => coreOut_eq_of_halfA_eq⟩, by decide⟩
  rw [List.getElem?_eq_getElem (by simpa using hj), coreOut_getElem, winByte_eq_byteOf s j (by omega)]
  rfl

end Sys2Proof.Machine
end

section
/-!
Each command on the machine with backends, seen in logical order (spec/42_backends.md R131 to R135): O35.
-/

namespace Sys2Proof.Machine

section

variable {m : BackendModules}

theorem raise_logical (e : ErrCode) (x : BackendState m) : raise e x.logical = .next (backendRaise e x).logical := rfl

/-- A command that completes with OK in `u` ends alike on the machine with backends in `x`, where `x` is `u` with its live context
held in a layout. -/
theorem finish_logical {u : State} {x : BackendState m} (hlive : logicalLive x.held = u.live)
    (hrest : { u with live := x.rest.live } = x.rest) : finish u = .next (backendFinish x).logical := by
  have hu : u = x.logical := by rw [BackendState.logical, hlive, ← hrest]
  rw [hu]
  rfl

theorem selectBackend_logical (x : BackendState m) (sel : Selector) :
    selectBackend x.logical sel = selectBackend x.rest sel := by
  cases sel <;> rfl

theorem logicalLive_backendStart (p : HashParams) (k : Backend) (rep : (m k).Rep) (mac : Bool) :
    logicalLive (some (backendStart p k rep mac)) = startObject p ((m k).dec rep) mac k := rfl

/-- INIT through the backend's `init` (R133, spec/44_hash_commands.md R154). -/
theorem execInit_logical (sel : Selector) (x : BackendState m) :
    execInit sel x.logical = .next (backendExec m (.init sel) x).logical := by
  have hparam : x.logical.param = x.rest.param := rfl
  simp only [execInit, backendExec, selectBackend_logical, hparam]
  split
  · cases selectBackend x.rest sel with
    | some k =>
      refine finish_logical ?_ rfl
      rw [logicalLive_backendStart, BackendModule.dec_init]
    | none => rfl
  · rfl

/-- MAC_INIT through `init` and `absorb_block` of the key's two blocks (R133, spec/45_mac_commands.md R171). -/
theorem execMacInit_logical (keylen : BitVec 7) (sel : Selector) (x : BackendState m) :
    execMacInit keylen sel x.logical = .next (backendExec m (.macInit keylen sel) x).logical := by
  have hparam : x.logical.param = x.rest.param := rfl
  simp only [execMacInit, backendExec, selectBackend_logical, hparam]
  split
  · split
    · cases selectBackend x.rest sel with
      | some k =>
        refine finish_logical ?_ rfl
        rw [logicalLive_backendStart, BackendModule.dec_absorb, BackendModule.dec_absorb, BackendModule.dec_init]
        rfl
      | none => rfl
    · rfl
  · rfl

/-- The phase check answers the error, or the object held, which is then in ABSORB (spec/44_hash_commands.md R153). -/
theorem backendGuard_cases (x : BackendState m) :
    (∃ e, backendGuard x.held = .error e ∧ guardAbsorb x.logical.live = some e)
    ∨ ∃ o, backendGuard x.held = .ok o ∧ x.held = some o ∧ guardAbsorb x.logical.live = none := by
  cases h : backendGuard x.held with
  | error e => exact .inl ⟨e, rfl, (backendGuard_error _ e).mp h⟩
  | ok o =>
    obtain ⟨hheld, hdone⟩ := (backendGuard_ok _ o).mp h
    refine .inr ⟨o, rfl, hheld, (guardAbsorb_eq_none _).mpr ?_⟩
    simp [BackendState.logical, hheld, logicalLive, hdone]

/-- UPDATE through the backend's `absorb_block` (R133, spec/44_hash_commands.md R155). -/
theorem execUpdate_logical (len : BitVec 7) (x : BackendState m) :
    execUpdate len x.logical = .next (backendExec m (.update len) x).logical := by
  obtain ⟨e, hb, hg⟩ | ⟨o, hb, hheld, hg⟩ := backendGuard_cases x <;> simp only [execUpdate, backendExec, hb, hg]
  · split <;> rfl
  · split
    · rfl
    · refine finish_logical ?_ rfl
      rw [logicalLive_backendAppendAll, ← hheld]
      rfl

/-- FINAL through `absorb_block` and `finalize` (R133, R156). -/
theorem execFinal_logical (x : BackendState m) : execFinal x.logical = .next (backendExec m .final x).logical := by
  obtain ⟨e, hb, hg⟩ | ⟨o, hb, hheld, hg⟩ := backendGuard_cases x <;> simp only [execFinal, backendExec, hb, hg]
  · rfl
  · have hlive : x.logical.live = logicalLive (some o) := congrArg logicalLive hheld
    rw [hlive, backendDigest_eq]
    refine finish_logical ?_ rfl
    simp only [logicalLive, BackendModule.dec_enc]
    rfl

/-- VERIFY through `absorb_block` and `finalize`, whose state it drops (R133, spec/45_mac_commands.md R172). -/
theorem execVerify_logical (taglen : BitVec 7) (x : BackendState m) :
    execVerify taglen x.logical = .next (backendExec m (.verify taglen) x).logical := by
  obtain ⟨e, hb, hg⟩ | ⟨o, hb, hheld, hg⟩ := backendGuard_cases x <;> simp only [execVerify, backendExec, hb, hg]
  · split <;> rfl
  · have hlive : x.logical.live = logicalLive (some o) := congrArg logicalLive hheld
    have hmac : (logicalLive (some o)).mac = o.mac := rfl
    rw [hlive, backendDigest_eq, hmac]
    split
    · rfl
    · split <;> rfl

/-- CTX_LOAD: the context accepted is the UNINIT one or names the backend it is moved into (R135,
spec/46_context_commands.md R182). -/
theorem execCtxLoad_logical (x : BackendState m) :
    execCtxLoad x.logical = .next (backendExec m .ctxLoad x).logical := by
  have hload : loadContext x.logical.caps x.logical.staging = loadContext x.rest.caps x.rest.staging := rfl
  simp only [execCtxLoad, backendExec, hload]
  cases hc : loadContext x.rest.caps x.rest.staging with
  | ok c =>
    refine finish_logical ?_ rfl
    obtain rfl | ⟨ph, k, hph, -, -, -, rfl⟩ := loadContext_eq_ok hc
    · rfl
    · exact logicalLive_holdContext (loadedObject x.rest.staging ph k) (fun h => nomatch h) fun _ => hph
  | error e => rfl

theorem execZeroize_logical (x : BackendState m) :
    execZeroize x.logical = .next (backendExec m .zeroize x).logical := by
  have hparams : x.logical.params = x.rest.params := rfl
  simp only [execZeroize, backendExec, hparams]
  split <;> rfl

end

/-- Settles O35, command by command. -/
theorem backendRunEqualsCore : Obligations.BackendRunEqualsCore := by
  intro m i x
  cases i with
  | nop => rfl
  | init bk => exact execInit_logical bk x
  | update len => exact execUpdate_logical len x
  | final => exact execFinal_logical x
  | macInit keylen bk => exact execMacInit_logical keylen bk x
  | verify taglen => exact execVerify_logical taglen x
  | ctxSave => rfl
  | ctxLoad => exact execCtxLoad_logical x
  | zeroize => exact execZeroize_logical x

end Sys2Proof.Machine
end

section
/-!
States that differ in the choice of available backends alone perform every command alike (spec/42_backends.md R137,
spec/43_dispatcher.md R145): O59.
-/

namespace Sys2Proof.Machine

/-! ### Contexts that differ in the active backend -/

/-- Two backend fields of a context that are the same, or both name an available backend. -/
abbrev BkTwins (caps : Word) (b d : Option Backend) : Prop :=
  b = d ∨ (b.any (available caps) = true ∧ d.any (available caps) = true)

theorem backendTwins_setBk {caps : Word} {b : Option Backend} (c : Live) (h : BkTwins caps c.bk b) :
    BackendTwins caps c { c with bk := b } :=
  ⟨rfl, h⟩

theorem BackendTwins.eq_setBk {caps : Word} {c d : Live} (h : BackendTwins caps c d) : d = { c with bk := d.bk } :=
  congrArg (fun x : Live => { x with bk := d.bk }) h.1.symm

/-- BUF_APPEND reads no backend (spec/44_hash_commands.md R151). -/
theorem bufAppend_setBk (c : Live) (k : Option Backend) (b : Byte) :
    bufAppend { c with bk := k } b = { bufAppend c b with bk := k } := by
  by_cases h : c.n.val + 1 < 32
  · rw [bufAppend_short c b h]
    exact bufAppend_short { c with bk := k } b h
  · have hn : c.n.val = 31 := by omega
    rw [bufAppend_full c b hn]
    exact bufAppend_full { c with bk := k } b hn

theorem bufAppendAll_setBk (c : Live) (k : Option Backend) (bs : List Byte) :
    bufAppendAll { c with bk := k } bs = { bufAppendAll c bs with bk := k } := by
  induction bs generalizing c with
  | nil => rfl
  | cons b bs ih => rw [bufAppendAll_cons, bufAppend_setBk, ih, bufAppendAll_cons]

@[simp] theorem guardAbsorb_setBk (c : Live) (k : Option Backend) : guardAbsorb { c with bk := k } = guardAbsorb c := rfl

@[simp] theorem digestOf_setBk (c : Live) (k : Option Backend) : digestOf { c with bk := k } = digestOf c := rfl

/-! ### The words that name a backend -/

theorem backendOfId_cmBk_contextFields (c : Live) : backendOfId (cmBk (contextFields c)) = c.bk := by
  obtain ⟨-, -, -, hbk, -⟩ := contextFields_fields c
  rw [cmBk, hbk]
  cases c.bk with
  | none => rfl
  | some k => cases k <;> rfl

theorem bkCode_masked (b : Option Backend) : (bkCode b <<< 8) &&& ~~~(0x700 : Word) = 0 := by
  cases b with
  | none => decide
  | some k => cases k <;> decide

/-- Outside bits 10:8 the context fields do not depend on the backend (spec/10_state.md R35, R45). -/
theorem contextFields_masked_setBk (c : Live) (b : Option Backend) :
    contextFields { c with bk := b } &&& ~~~(0x700 : Word) = contextFields c &&& ~~~(0x700 : Word) := by
  simp only [contextFields, BitVec.and_or_distrib_right, bkCode_masked]

/-! ### Staging contexts that differ in CM.BK -/

/-- Two words for CM that are the same, or agree outside CM.BK and name available backends there. -/
abbrev CmTwins (caps : Word) (v w : Word) : Prop :=
  v = w
  ∨ (v &&& ~~~(0x700 : Word) = w &&& ~~~(0x700 : Word)
    ∧ (backendOfId (cmBk v)).any (available caps) = true ∧ (backendOfId (cmBk w)).any (available caps) = true)

theorem cmTwins_contextFields {caps : Word} {b : Option Backend} (c : Live) (h : BkTwins caps c.bk b) :
    CmTwins caps (contextFields c) (contextFields { c with bk := b }) := by
  obtain rfl | ⟨hc, hb⟩ := h
  · exact .inl rfl
  · exact .inr ⟨(contextFields_masked_setBk c b).symm, by rwa [backendOfId_cmBk_contextFields],
      by rwa [backendOfId_cmBk_contextFields]⟩

/-- A field of CM that lies outside bits 10:8 is read from the other bits (R45). -/
theorem extractLsb'_masked {start len : Nat} (cm : Word)
    (h : (~~~(0x700 : Word)).extractLsb' start len = BitVec.allOnes len) :
    (cm &&& ~~~(0x700 : Word)).extractLsb' start len = cm.extractLsb' start len := by
  rw [BitVec.extractLsb'_and, h, BitVec.and_allOnes]

theorem cmPhase_masked (cm : Word) : cmPhase (cm &&& ~~~(0x700 : Word)) = cmPhase cm := by
  rw [cmPhase, extractLsb'_masked cm (by decide)]
  rfl

theorem cmN_masked (cm : Word) : cmN (cm &&& ~~~(0x700 : Word)) = cmN cm := by
  rw [cmN, extractLsb'_masked cm (by decide)]
  rfl

theorem cmMac_masked (cm : Word) : cmMac (cm &&& ~~~(0x700 : Word)) = cmMac cm := by
  have hbit : (~~~(0x700 : Word)).getLsbD 6 = true := by decide
  rw [cmMac, BitVec.getLsbD_and, hbit, Bool.and_true]
  rfl

/-- CM.BK holds no reserved bit. -/
theorem cmReserved_masked (cm : Word) : cmReserved (cm &&& ~~~(0x700 : Word)) = cmReserved cm := by
  have hmask : ~~~(0x700 : Word) &&& ~~~(0x001F0770 : Word) = ~~~(0x001F0770 : Word) := by decide
  rw [cmReserved, BitVec.and_assoc, hmask]
  rfl

/-- The phase of the object that CTX_LOAD makes of a staging context naming an available backend, `none` where a check of R182
that does not read CM.BK fails (spec/46_context_commands.md R182). -/
def loadedPhase (g : Staging) : Option Phase :=
  if cmReserved g.cm then none
  else
    match cmPhase g.cm with
    | none => none
    | some .uninit => none
    | some ph =>
      if ph = .done ∧ cmN g.cm ≠ 0 then none
      else if g.cp.getLsbD 31 then none
      else if legalH (paramOfWord g.cp).h then some ph
      else none

/-- Where CM.BK names an available backend, the error of every check that fails is BAD_CONTEXT (R182). -/
theorem loadContext_of_named {caps : Word} {g : Staging} {k : Backend} (hk : backendOfId (cmBk g.cm) = some k)
    (ha : available caps k = true) :
    loadContext caps g = (loadedPhase g).elim (.error .badContext) fun ph => .ok (loadedObject g ph k) := by
  have hbk : cmBk g.cm ≠ 0 := fun h => by rw [h] at hk; cases hk
  simp only [loadContext, loadedPhase, hk, ha, hbk, if_true, ne_eq, not_false_eq_true, true_or, or_true]
  split
  · rfl
  · cases cmPhase g.cm with
    | none => rfl
    | some ph =>
      cases ph with
      | uninit => rfl
      | absorb | done =>
        simp only
        split
        · rfl
        · split
          · rfl
          · split <;> rfl

theorem loadedPhase_eq_of_masked {g : Staging} {w : Word} (h : g.cm &&& ~~~(0x700 : Word) = w &&& ~~~(0x700 : Word)) :
    loadedPhase { g with cm := w } = loadedPhase g := by
  have hres : cmReserved w = cmReserved g.cm := by rw [← cmReserved_masked w, ← h, cmReserved_masked]
  have hph : cmPhase w = cmPhase g.cm := by rw [← cmPhase_masked w, ← h, cmPhase_masked]
  have hn : cmN w = cmN g.cm := by rw [← cmN_masked w, ← h, cmN_masked]
  simp only [loadedPhase, hres, hph, hn]

theorem loadedObject_of_masked {g : Staging} {w : Word} (h : g.cm &&& ~~~(0x700 : Word) = w &&& ~~~(0x700 : Word))
    (ph : Phase) (k d : Backend) :
    loadedObject { g with cm := w } ph d = { loadedObject g ph k with bk := some d } := by
  have hn : cmN w = cmN g.cm := by rw [← cmN_masked w, ← h, cmN_masked]
  have hmac : cmMac w = cmMac g.cm := by rw [← cmMac_masked w, ← h, cmMac_masked]
  simp only [loadedObject, hn, hmac]

/-- CTX_LOAD of staging contexts that differ in the available backend they name: the same error, or the same object (R137). -/
theorem loadContext_twins {caps : Word} {g : Staging} {w : Word} (h : CmTwins caps g.cm w) :
    (∃ e, loadContext caps g = .error e ∧ loadContext caps { g with cm := w } = .error e)
    ∨ ∃ c d, loadContext caps g = .ok c ∧ loadContext caps { g with cm := w } = .ok d ∧ BackendTwins caps c d := by
  obtain rfl | ⟨hmask, hv, hw⟩ := h
  · cases hl : loadContext caps g with
    | error e => exact .inl ⟨e, rfl, rfl⟩
    | ok c => exact .inr ⟨c, c, rfl, rfl, rfl, .inl rfl⟩
  · obtain ⟨k, hk, hka⟩ := (Option.any_eq_true _ _).mp hv
    obtain ⟨d, hd, hda⟩ := (Option.any_eq_true _ _).mp hw
    rw [loadContext_of_named hk hka, loadContext_of_named (g := { g with cm := w }) hd hda, loadedPhase_eq_of_masked hmask]
    cases loadedPhase g with
    | none => exact .inl ⟨.badContext, rfl, rfl⟩
    | some ph =>
      refine .inr ⟨_, _, rfl, rfl, ?_⟩
      rw [loadedObject_of_masked hmask ph k d]
      exact backendTwins_setBk _ (.inr ⟨hka, hda⟩)

/-! ### The twin of a state -/

/-- `s` with another PREF, another active backend and another CM. -/
abbrev backendTwin (s : State) (pref : List Backend) (b : Option Backend) (cm : Word) : State :=
  { s with
    params := { s.params with prefFront := pref }
    live := { s.live with bk := b }
    staging := { s.staging with cm := cm } }

theorem stateTwins_iff {s t : State} :
    StateTwins s t ↔
      ∃ pref b cm, t = backendTwin s pref b cm ∧ available s.caps .soft = true ∧ BkTwins s.caps s.live.bk b
        ∧ CmTwins s.caps s.staging.cm cm := by
  constructor
  · rintro ⟨hrest, hsoft, hlive, hcs, hcb, hcp, hcm⟩
    refine ⟨t.params.prefFront, t.live.bk, t.staging.cm, ?_, hsoft, hlive.2, hcm⟩
    have hstaging : { s.staging with cm := t.staging.cm } = t.staging := by simp only [hcs, hcb, hcp]
    rw [backendTwin, hstaging, ← hlive.eq_setBk, hrest]
  · rintro ⟨pref, b, cm, rfl, hsoft, hbk, hcm⟩
    exact ⟨rfl, hsoft, backendTwins_setBk _ hbk, rfl, rfl, rfl, hcm⟩

/-! ### What each command makes of twins -/

/-- Two twins complete alike with the same code. -/
theorem StateTwins.complete {s t : State} (h : StateTwins s t) (code : ErrCode) (eq : Bool) :
    StateTwins (Machine.complete code eq s) (Machine.complete code eq t) := by
  obtain ⟨hrest, hsoft, hlive, hstaging⟩ := h
  exact ⟨congrArg (Machine.complete code eq) hrest, hsoft, hlive, hstaging⟩

theorem finish_twins {s t : State} (h : StateTwins s t) : OutcomeRel StateTwins (finish s) (finish t) :=
  h.complete .ok false

theorem raise_twins (e : ErrCode) {s t : State} (h : StateTwins s t) : OutcomeRel StateTwins (raise e s) (raise e t) :=
  h.complete e false

/-- Two selections that both find no backend, or each an available one. -/
abbrev SelectionTwins (caps : Word) (k d : Option Backend) : Prop :=
  (k = none ∧ d = none) ∨ ∃ k' d', k = some k' ∧ d = some d' ∧ available caps k' = true ∧ available caps d' = true

theorem selectionTwins_of_isSome {s t : State} {x y : Selector} (h : StateTwins s t)
    (hx : (selectBackend s x).isSome = true) (hy : (selectBackend t y).isSome = true) :
    SelectionTwins s.caps (selectBackend s x) (selectBackend t y) := by
  obtain ⟨pref, b, cm, rfl, hsoft, -, -⟩ := stateTwins_iff.mp h
  obtain ⟨k, hk⟩ := Option.isSome_iff_exists.mp hx
  obtain ⟨d, hd⟩ := Option.isSome_iff_exists.mp hy
  exact .inr ⟨k, d, hk, hd, selectBackend_available hsoft hk,
    selectBackend_available (s := backendTwin s pref b cm) hsoft hd⟩

/-- The same selector: automatic selection always finds a backend, explicit selection depends on CAPS alone (R142, R143). -/
theorem selectionTwins_same {s t : State} (h : StateTwins s t) (x : Selector) :
    SelectionTwins s.caps (selectBackend s x) (selectBackend t x) := by
  cases x with
  | auto => exact selectionTwins_of_isSome h rfl rfl
  | named k =>
    obtain ⟨pref, b, cm, rfl, -, -, -⟩ := stateTwins_iff.mp h
    change SelectionTwins s.caps (selectExplicit s.caps k) (selectExplicit s.caps k)
    cases hk : selectExplicit s.caps k with
    | none => exact .inl ⟨rfl, rfl⟩
    | some d =>
      obtain ⟨rfl, hd⟩ := (selectExplicit_eq_some s.caps k d).mp hk
      exact .inr ⟨d, d, rfl, rfl, hd, hd⟩

theorem execInit_twins {s t : State} {x y : Selector} (h : StateTwins s t)
    (hsel : SelectionTwins s.caps (selectBackend s x) (selectBackend t y)) :
    OutcomeRel StateTwins (execInit x s) (execInit y t) := by
  obtain ⟨pref, b, cm, rfl, hsoft, -, hcm⟩ := stateTwins_iff.mp h
  simp only [execInit]
  split
  · obtain ⟨hx, hy⟩ | ⟨k, d, hx, hy, hk, hd⟩ := hsel
    · simp only [hx, hy]
      exact raise_twins _ h
    · simp only [hx, hy]
      exact finish_twins ⟨rfl, hsoft, ⟨rfl, .inr ⟨hk, hd⟩⟩, rfl, rfl, rfl, hcm⟩
  · exact raise_twins _ h

theorem execMacInit_twins {s t : State} {x y : Selector} (keylen : BitVec 7) (h : StateTwins s t)
    (hsel : SelectionTwins s.caps (selectBackend s x) (selectBackend t y)) :
    OutcomeRel StateTwins (execMacInit keylen x s) (execMacInit keylen y t) := by
  obtain ⟨pref, b, cm, rfl, hsoft, hbk, hcm⟩ := stateTwins_iff.mp h
  have cleared : StateTwins { s with key := zeroWords 16 } { backendTwin s pref b cm with key := zeroWords 16 } :=
    stateTwins_iff.mpr ⟨pref, b, cm, rfl, hsoft, hbk, hcm⟩
  simp only [execMacInit]
  split
  · split
    · obtain ⟨hx, hy⟩ | ⟨k, d, hx, hy, hk, hd⟩ := hsel
      · simp only [hx, hy]
        exact raise_twins _ cleared
      · simp only [hx, hy]
        exact finish_twins ⟨rfl, hsoft, ⟨rfl, .inr ⟨hk, hd⟩⟩, rfl, rfl, rfl, hcm⟩
    · exact raise_twins _ cleared
  · exact raise_twins _ cleared

theorem execUpdate_twins {s t : State} (len : BitVec 7) (h : StateTwins s t) :
    OutcomeRel StateTwins (execUpdate len s) (execUpdate len t) := by
  obtain ⟨pref, b, cm, rfl, hsoft, hbk, hcm⟩ := stateTwins_iff.mp h
  simp only [execUpdate, guardAbsorb_setBk, bufAppendAll_setBk]
  split
  · exact raise_twins _ h
  · split
    · exact raise_twins _ h
    · refine finish_twins (stateTwins_iff.mpr ⟨pref, b, cm, rfl, hsoft, ?_, hcm⟩)
      rwa [bufAppendAll_bk]

theorem execFinal_twins {s t : State} (h : StateTwins s t) : OutcomeRel StateTwins (execFinal s) (execFinal t) := by
  obtain ⟨pref, b, cm, rfl, hsoft, hbk, hcm⟩ := stateTwins_iff.mp h
  simp only [execFinal, guardAbsorb_setBk, digestOf_setBk]
  split
  · exact raise_twins _ h
  · exact finish_twins (stateTwins_iff.mpr ⟨pref, b, cm, rfl, hsoft, hbk, hcm⟩)

theorem execVerify_twins {s t : State} (taglen : BitVec 7) (h : StateTwins s t) :
    OutcomeRel StateTwins (execVerify taglen s) (execVerify taglen t) := by
  obtain ⟨pref, b, cm, rfl, -⟩ := stateTwins_iff.mp h
  simp only [execVerify, guardAbsorb_setBk, digestOf_setBk]
  split
  · exact raise_twins _ h
  · split
    · exact raise_twins _ h
    · split
      · exact h.complete _ _
      · exact raise_twins _ h

theorem execCtxSave_twins {s t : State} (h : StateTwins s t) :
    OutcomeRel StateTwins (execCtxSave s) (execCtxSave t) := by
  obtain ⟨pref, b, cm, rfl, hsoft, hbk, -⟩ := stateTwins_iff.mp h
  exact finish_twins (stateTwins_iff.mpr ⟨pref, b, _, rfl, hsoft, hbk, cmTwins_contextFields s.live hbk⟩)

theorem execCtxLoad_twins {s t : State} (h : StateTwins s t) :
    OutcomeRel StateTwins (execCtxLoad s) (execCtxLoad t) := by
  obtain ⟨pref, b, cm, rfl, hsoft, -, hcm⟩ := stateTwins_iff.mp h
  simp only [execCtxLoad]
  obtain ⟨e, hs, ht⟩ | ⟨c, d, hs, ht, hcd⟩ := loadContext_twins hcm
  · simp only [hs, ht]
    exact raise_twins e h
  · simp only [hs, ht]
    exact finish_twins ⟨rfl, hsoft, hcd, rfl, rfl, rfl, hcm⟩

theorem execZeroize_twins {s t : State} (h : StateTwins s t) :
    OutcomeRel StateTwins (execZeroize s) (execZeroize t) := by
  obtain ⟨pref, b, cm, rfl, hsoft, -, -⟩ := stateTwins_iff.mp h
  simp only [execZeroize]
  split
  · exact finish_twins ⟨rfl, hsoft, ⟨rfl, .inl rfl⟩, rfl, rfl, rfl, .inl rfl⟩
  · exact raise_twins _ h

theorem exec_twins_same {s t : State} (i : Instr) (h : StateTwins s t) :
    OutcomeRel StateTwins (exec i s) (exec i t) := by
  cases i with
  | nop => exact finish_twins h
  | init x => exact execInit_twins h (selectionTwins_same h x)
  | update len => exact execUpdate_twins len h
  | final => exact execFinal_twins h
  | macInit keylen x => exact execMacInit_twins keylen h (selectionTwins_same h x)
  | verify taglen => exact execVerify_twins taglen h
  | ctxSave => exact execCtxSave_twins h
  | ctxLoad => exact execCtxLoad_twins h
  | zeroize => exact execZeroize_twins h

theorem exec_twins {s t : State} {i j : Instr} (h : StateTwins s t) (hij : CommandTwins s t i j) :
    OutcomeRel StateTwins (exec i s) (exec j t) := by
  obtain rfl | ⟨x, y, rfl, rfl, hx, hy⟩ | ⟨keylen, x, y, rfl, rfl, hx, hy⟩ := hij
  · exact exec_twins_same i h
  · exact execInit_twins h (selectionTwins_of_isSome h hx hy)
  · exact execMacInit_twins keylen h (selectionTwins_of_isSome h hx hy)

/-! ### What twins read -/

theorem regValue_twins {s t : State} (h : StateTwins s t) {r : Reg} (hstatus : r ≠ .status) (hcm : r ≠ .cm) :
    regValue s r = regValue t r := by
  obtain ⟨pref, b, cm, rfl, -⟩ := stateTwins_iff.mp h
  cases r with
  | status => exact absurd rfl hstatus
  | cm => exact absurd rfl hcm
  | _ => rfl

/-- Outside bits 10:8 STATUS does not depend on the active backend (R35). -/
theorem statusWord_masked_twins {s t : State} (h : StateTwins s t) :
    statusWord s &&& ~~~(0x700 : Word) = statusWord t &&& ~~~(0x700 : Word) := by
  obtain ⟨pref, b, cm, rfl, -⟩ := stateTwins_iff.mp h
  simp only [statusWord, BitVec.and_or_distrib_right, contextFields_masked_setBk]
  rfl

theorem regValue_masked_twins {s t : State} (h : StateTwins s t) (r : Reg) :
    regValue s r &&& ~~~(0x700 : Word) = regValue t r &&& ~~~(0x700 : Word) := by
  by_cases hstatus : r = .status
  · subst hstatus
    exact statusWord_masked_twins h
  by_cases hcm : r = .cm
  · subst hcm
    obtain ⟨-, -, -, -, -, -, heq | ⟨hmask, -⟩⟩ := h
    · exact congrArg (· &&& ~~~(0x700 : Word)) heq
    · exact hmask
  · rw [regValue_twins h hstatus hcm]

/-- Settles O59: every command keeps the relation, and only bits 10:8 of STATUS and CM tell twins apart. -/
theorem noBackendChangesResult : Obligations.NoBackendChangesResult :=
  fun _ _ _ _ h hij => ⟨exec_twins h hij, fun _ => regValue_twins h, regValue_masked_twins h⟩

end Sys2Proof.Machine
end

section
/-!
CAPS and the parameters under a step, and what the selector makes of INIT and MAC_INIT (spec/43_dispatcher.md R141 to R143): O16,
O38, O39.
-/

namespace Sys2Proof.Machine

/-! ### Who writes CAPS -/

/-- The host's step keeps the parameters; it latches CAPS again where it takes a reset and keeps it elsewhere (R141). -/
theorem hostStep_params_caps {s t : State} (h : hostStep s = .next t) :
    t.params = s.params ∧ (t.caps = s.caps ∨ (∃ rest, s.events = .reset :: rest) ∧ t.caps = capsOf s.params) := by
  by_cases hreset : ∃ rest, s.events = .reset :: rest
  · obtain ⟨rest, hev⟩ := hreset
    rw [hostStep_cons s .reset rest hev] at h
    cases h
    exact ⟨rfl, .inr ⟨⟨rest, hev⟩, rfl⟩⟩
  · obtain ⟨-, -, -, -, hcaps, hparams⟩ := hostNeverTouchesContext s t h (not_exists.mp hreset)
    exact ⟨hparams, .inl hcaps⟩

/-- Settles O16: the engine's step keeps CAPS, and of the host's only the one that takes a reset writes it. -/
theorem capsChangesOnlyAtReset : Obligations.CapsChangesOnlyAtReset := by
  intro s t h
  obtain ⟨p, -, -, he⟩ | ⟨-, he⟩ | ⟨p, -, -, -, he⟩ := step_cases s <;> rw [he] at h
  · obtain ⟨hparams, hcaps, -⟩ := engineStep_next h
    exact ⟨hparams, .inl hcaps⟩
  · exact hostStep_params_caps h
  · exact hostStep_params_caps h

/-! ### INIT and MAC_INIT by what the selector finds -/

/-- An error leaves everything but the flags alone (R201, R202). -/
theorem raise_eq {e : ErrCode} (he : e ≠ .ok) (s : State) :
    raise e s = .next { s with err := e, esticky := true, vok := false, pending := none } := by
  simp [raise, complete, he]

theorem exec_init_of_selected {s : State} {sel : Selector} {k : Backend} (hlegal : legalH s.param.h = true)
    (hsel : selectBackend s sel = some k) :
    exec (.init sel) s
      = finish { s with
          live := startObject s.param (coreInit s.param.i s.param.r s.param.h) false k
          dout := zeroWords 16 } := by
  simp only [exec, execInit, hlegal, hsel, if_true]

theorem exec_init_of_unavailable {s : State} {sel : Selector} (hlegal : legalH s.param.h = true)
    (hsel : selectBackend s sel = none) : exec (.init sel) s = raise .unavailableBackend s := by
  simp only [exec, execInit, hlegal, hsel, if_true]

theorem exec_macInit_of_selected {s : State} {keylen : BitVec 7} {sel : Selector} {k : Backend}
    (hlegal : legalH s.param.h = true) (hlen : keylen.toNat = 64) (hsel : selectBackend s sel = some k) :
    exec (.macInit keylen sel) s
      = finish { s with
          key := zeroWords 16
          live := startObject s.param (macState s.param s.key) true k
          dout := zeroWords 16 } := by
  simp only [exec, execMacInit, hlegal, hlen, hsel, if_true]

theorem exec_macInit_of_unavailable {s : State} {keylen : BitVec 7} {sel : Selector} (hlegal : legalH s.param.h = true)
    (hlen : keylen.toNat = 64) (hsel : selectBackend s sel = none) :
    exec (.macInit keylen sel) s = raise .unavailableBackend { s with key := zeroWords 16 } := by
  simp only [exec, execMacInit, hlegal, hlen, hsel, if_true]

/-- Both commands that start an object complete with OK and make the backend found the active one. -/
theorem startsObject_of_selected {s : State} {sel : Selector} {k : Backend} (hlegal : legalH s.param.h = true)
    (hsel : selectBackend s sel = some k) :
    (∃ t, exec (.init sel) s = .next t ∧ t.err = .ok ∧ t.live.bk = some k)
    ∧ ∃ t, exec (.macInit 64 sel) s = .next t ∧ t.err = .ok ∧ t.live.bk = some k :=
  ⟨⟨_, exec_init_of_selected hlegal hsel, rfl, rfl⟩, ⟨_, exec_macInit_of_selected hlegal rfl hsel, rfl, rfl⟩⟩

/-! ### The selection rules -/

/-- Explicit selection answers nothing where CAPS says the named backend is absent (R142). -/
theorem selectExplicit_eq_none (caps : Word) (b : Backend) : selectExplicit caps b = none ↔ available caps b = false := by
  simp [selectExplicit]

/-- Settles O38: a named backend is found exactly where its CAPS bit is 1, and no other is looked for. -/
theorem explicitSelection : Obligations.ExplicitSelection := by
  intro s b hlow hhigh
  have hlegal : legalH s.param.h = true := (legalH_iff _).mpr ⟨hlow, hhigh⟩
  refine ⟨fun habsent => ?_, fun hpresent => ?_⟩
  · have hsel : selectBackend s (.named b) = none := (selectExplicit_eq_none s.caps b).mpr habsent
    rw [exec_init_of_unavailable hlegal hsel, exec_macInit_of_unavailable hlegal rfl hsel]
    exact ⟨raise_eq (by decide) s, raise_eq (by decide) _⟩
  · exact startsObject_of_selected hlegal ((selectExplicit_eq_some s.caps b b).mpr ⟨rfl, hpresent⟩)

/-- Where Soft is present automatic selection splits PREF at the first backend present: PREF ends with Soft (R143). -/
theorem pref_split_selectAuto (p : Config.Params) {caps : Word} (hsoft : available caps .soft = true) :
    ∃ before after, p.pref = before ++ selectAuto p caps :: after ∧ ∀ b ∈ before, available caps b = false := by
  have hfound : p.pref.find? (available caps) = some (selectAuto p caps) := by
    have hmem : Backend.soft ∈ p.pref := by simp [Config.Params.pref]
    obtain ⟨k, hk⟩ := Option.isSome_iff_exists.mp (List.find?_isSome.mpr ⟨_, hmem, hsoft⟩)
    simp [selectAuto, hk]
  obtain ⟨-, before, after, hsplit, hbefore⟩ := List.find?_eq_some_iff_append.mp hfound
  exact ⟨before, after, hsplit, fun b hb => by simpa using hbefore b hb⟩

/-- Settles O39: the split of PREF at the backend found, which both commands make the active one. -/
theorem automaticSelection : Obligations.AutomaticSelection := by
  intro s hlow hhigh hsoft
  obtain ⟨before, after, hsplit, hbefore⟩ := pref_split_selectAuto s.params (caps := s.caps) hsoft
  exact ⟨before, after, selectAuto s.params s.caps, hsplit, hbefore, selectAuto_available s.params s.caps hsoft,
    startsObject_of_selected ((legalH_iff _).mpr ⟨hlow, hhigh⟩) rfl⟩

end Sys2Proof.Machine
end

section
/-!
The hash commands one by one: INIT and its errors, the phase check, UPDATE, FINAL and what they leave unchanged
(spec/44_hash_commands.md R151 to R156; spec/41_permutation_core.md R115 to R117): O36, O37, O40 to O43.
-/

namespace Sys2Proof.Machine

/-! ### INIT -/

/-- A command that completes with OK keeps ESTICKY (R201). -/
theorem finish_eq (s : State) : finish s = .next { s with err := .ok, vok := false, pending := none } := by
  simp [finish, complete]

theorem exec_init_of_illegal {s : State} (sel : Selector) (hlegal : legalH s.param.h = false) :
    exec (.init sel) s = raise .invalidParameter s := by
  simp [exec, execInit, hlegal]

/-- The state CORE_INIT starts from, word by word (R115). -/
theorem seedState_eq_ofFn (r : BitVec 8) (h : BitVec 7) :
    seedState r h = Vector.ofFn fun j : Fin 32 =>
      if j = 0 then h.setWidth 32 else if j = 1 then 32 else if j = 2 then r.setWidth 32 else 0 := by
  ext i hi
  simp only [seedState, zeroWords, Vector.getElem_set, Vector.getElem_replicate, Vector.getElem_ofFn, Fin.ext_iff]
  grind

/-- Settles O36: the object `startObject` builds, and CORE_INIT as an iteration of ROUND. -/
theorem initResult : Obligations.InitResult := by
  intro s bk k hlow hhigh hsel
  constructor
  · rw [exec_init_of_selected ((legalH_iff _).mpr ⟨hlow, hhigh⟩) hsel, finish_eq]
    rfl
  · rw [coreInit, rounds_eq_iterate, seedState_eq_ofFn]

/-- Settles O37: an H out of range is an error whatever the selector finds. -/
theorem initErrors : Obligations.InitErrors := by
  intro s bk
  refine ⟨fun hout => ?_, fun hlow hhigh hnone => ?_⟩
  · have hlegal : legalH s.param.h = false := by
      rw [← Bool.not_eq_true, legalH_iff]
      omega
    rw [exec_init_of_illegal bk hlegal, raise_eq (by decide)]
  · rw [exec_init_of_unavailable ((legalH_iff _).mpr ⟨hlow, hhigh⟩) hnone, raise_eq (by decide)]

/-! ### The phase check -/

theorem exec_update_of_absorb {s : State} {len : BitVec 7} (hphase : s.live.phase = .absorb) (hlen : len.toNat ≤ 32) :
    exec (.update len) s = finish { s with live := bufAppendAll s.live ((bytesOf s.din).take len.toNat) } := by
  simp only [exec, execUpdate, if_neg (Nat.not_lt.mpr hlen), (guardAbsorb_eq_none _).mpr hphase]

theorem exec_final_of_absorb {s : State} (hphase : s.live.phase = .absorb) :
    exec .final s = finish { s with
      live := { finalized s.live with phase := .done }, dout := digestWindow (digestOf s.live) } := by
  simp only [exec, execFinal, (guardAbsorb_eq_none _).mpr hphase]

theorem exec_update_of_guard {s : State} {len : BitVec 7} {e : ErrCode} (hlen : len.toNat ≤ 32)
    (hguard : guardAbsorb s.live = some e) : exec (.update len) s = raise e s := by
  simp only [exec, execUpdate, if_neg (Nat.not_lt.mpr hlen), hguard]

theorem exec_final_of_guard {s : State} {e : ErrCode} (hguard : guardAbsorb s.live = some e) :
    exec .final s = raise e s := by
  simp only [exec, execFinal, hguard]

theorem exec_verify_of_guard {s : State} {taglen : BitVec 7} {e : ErrCode} (hlen : taglen.toNat ≤ 64)
    (hguard : guardAbsorb s.live = some e) : exec (.verify taglen) s = raise e s := by
  simp only [exec, execVerify, if_neg (Nat.not_lt.mpr hlen), hguard]

theorem guardAbsorb_ne_ok {c : Live} {e : ErrCode} (h : guardAbsorb c = some e) : e ≠ .ok := by
  obtain ⟨-, rfl⟩ | ⟨-, rfl⟩ := (guardAbsorb_eq_some c e).mp h <;> decide

/-- Settles O41: the three commands raise what the phase check answers. -/
theorem phaseCheck : Obligations.PhaseCheck := by
  intro s i e hi he
  have hguard : guardAbsorb s.live = some e := (guardAbsorb_eq_some _ _).mpr he
  rw [← raise_eq (guardAbsorb_ne_ok hguard)]
  obtain rfl | ⟨len, hlen, rfl⟩ | ⟨taglen, hlen, rfl⟩ := hi
  · exact exec_final_of_guard hguard
  · exact exec_update_of_guard hlen hguard
  · exact exec_verify_of_guard hlen hguard

/-! ### UPDATE -/

/-- The bytes UPDATE takes from DIN (R155). -/
theorem take_bytesOf_getD {k : Nat} (w : Vector Word k) {len : Nat} (hlen : len ≤ 4 * k) (i : Nat) (d : Byte) :
    ((bytesOf w).take len).getD i d = if i < len then winByte w i else d := by
  by_cases h : i < len
  · simp [bytesOf, h, show i < 4 * k by omega]
  · simp [h]

/-- CORE_ABSORB xors the block into words 0 to 7 byte by byte, then iterates ROUND (R116, R64). -/
theorem coreAbsorb_eq_iterate (s : CoreState) (blk : Block) (r : BitVec 8) :
    ∃ x : CoreState, coreAbsorb s blk r = cubeRound^[r.toNat] x
      ∧ (∀ (k : Fin 8) (b : Fin 4),
          x[k.val].extractLsb' (8 * b.val) 8 = s[k.val].extractLsb' (8 * b.val) 8 ^^^ blk[4 * k.val + b.val])
      ∧ ∀ k : Fin 24, x[8 + k.val] = s[8 + k.val] :=
  ⟨xorBlock s blk, rounds_eq_iterate _ _, fun k b => xorBlock_byte s blk k b k.isLt b.isLt,
    fun k => xorBlock_getElem_high s blk (8 + k.val) (by omega) (by omega)⟩

/-- The buffer after bytes of DIN that leave it below 32: they follow the held ones, zero bytes above (R151). -/
theorem bufferWith_din_short {c : Live} (hzero : ∀ j : Fin 32, c.n.val ≤ j.val → c.buf[j] = 0) (din : Vector Word 8)
    {len : Nat} (hlen : len ≤ 32) (j : Fin 32) :
    (bufferWith c ((bytesOf din).take len))[j] =
      if j.val < c.n.val then c.buf[j] else if j.val < c.n.val + len then winByte din (j.val - c.n.val) else 0 := by
  simp only [bufferWith, Fin.getElem_fin, Vector.getElem_ofFn, take_bytesOf_getD din (k := 8) hlen]
  split
  · rfl
  · have habove : c.buf[j.val] = 0 := hzero j (by omega)
    simp only [habove, show j.val - c.n.val < len ↔ j.val < c.n.val + len by omega]

/-- The block that bytes of DIN fill (R151). -/
theorem bufferWith_din_full {c : Live} (din : Vector Word 8) {len : Nat} (hlen : len ≤ 32) (hfull : 32 ≤ c.n.val + len) :
    bufferWith c ((bytesOf din).take len) = Vector.ofFn fun j : Fin 32 =>
      if j.val < c.n.val then c.buf[j] else winByte din (j.val - c.n.val) := by
  ext i hi
  simp [bufferWith, take_bytesOf_getD din (k := 8) hlen, show i - c.n.val < len by omega, -List.getD_eq_getElem?_getD]

/-- Settles O40: the bytes taken from DIN, appended without or with a block filled. -/
theorem updateResult : Obligations.UpdateResult := by
  intro s len hphase hlen hzero
  have hbytes : ((bytesOf s.din).take len.toNat).length = len.toNat := by simp; omega
  refine ⟨_, (exec_update_of_absorb hphase hlen).trans (finish_eq _), by simpa using hphase, bufAppendAll_mac ..,
    bufAppendAll_bk .., bufAppendAll_lp .., fun hshort => ?_, fun hfull => ?_⟩
  · rw [bufAppendAll_short _ _ (by omega)]
    exact ⟨by simp only [hbytes], rfl, bufferWith_din_short hzero s.din hlen⟩
  · rw [bufAppendAll_full _ _ (by omega) (by omega)]
    simp only [bufferWith_din_full s.din hlen hfull]
    refine ⟨by simp only [hbytes], ⟨trivial, coreAbsorb_eq_iterate _ _ _⟩, fun j => ?_⟩
    simp only [Fin.getElem_fin, Vector.getElem_ofFn, take_bytesOf_getD s.din (k := 8) hlen,
      show j.val + 32 - s.live.n.val < len.toNat ↔ j.val < s.live.n.val + len.toNat - 32 by omega]

/-! ### FINAL -/

/-- The digest window byte by byte (R156). -/
theorem winByte_digestWindow (out : List Byte) {j : Nat} (hj : j < 64) : winByte (digestWindow out) j = out.getD j 0 :=
  winByte_packBytes 16 _ j (by omega)

/-- The block PAD_BLOCK absorbs (R152): the held bytes, 0x80 and zero bytes. -/
theorem padded_eq_ofFn {c : Live} (hzero : ∀ j : Fin 32, c.n.val ≤ j.val → c.buf[j] = 0) :
    c.buf.set c.n.val 0x80 = Vector.ofFn fun j : Fin 32 =>
      if j.val < c.n.val then c.buf[j] else if j.val = c.n.val then 0x80 else 0 := by
  ext i hi
  have habove : c.n.val ≤ i → c.buf[i] = 0 := hzero ⟨i, hi⟩
  simp only [Vector.getElem_set, Vector.getElem_ofFn, Fin.getElem_fin]
  obtain hlt | rfl | hgt := Nat.lt_trichotomy i c.n.val
  · simp [hlt, hlt.ne']
  · simp
  · simp [hgt.ne, hgt.ne', hgt.not_gt, habove hgt.le]

/-- CORE_FINAL flips bit 0 of S[31] and iterates ROUND (R117). -/
theorem coreFinal_eq_iterate (s : CoreState) (f : BitVec 8) :
    coreFinal s f = cubeRound^[f.toNat] (s.set 31 (s[31] ^^^ 1)) := rounds_eq_iterate _ _

/-- Settles O42: the padded block of an object whose buffer is zero from N on. -/
theorem finalResult : Obligations.FinalResult := by
  intro s hinv hphase blk x st
  obtain ⟨hzero, -⟩ := hinv
  have hst : (finalized s.live).s = st := by
    simp only [finalized, padBlock, coreFinal_eq_iterate, padded_eq_ofFn hzero, st, x, blk]
  refine ⟨digestWindow (digestOf s.live), ?_, fun j hj => ?_⟩
  · rw [exec_final_of_absorb hphase, finish_eq, ← hst]
    rfl
  · rw [winByte_digestWindow _ hj, digestOf, hst]
    split
    next h => exact coreOut_getD st _ j h
    next h => exact List.getD_eq_default _ _ (by simpa using h)

/-! ### The frame -/

/-- The outcome completes the command with only the live context, DOUT and the flags written, DOUT on success alone and never by
UPDATE (R154 to R156, R201, R202). -/
abbrev WritesHashObject (i : Instr) (s : State) (o : Result) : Prop :=
  ∃ code c d, o = .next (complete code false { s with live := c, dout := d })
    ∧ (((∃ len, i = .update len) ∨ code ≠ .ok) → d = s.dout)

theorem raise_writesHashObject (i : Instr) (e : ErrCode) (s : State) : WritesHashObject i s (raise e s) :=
  ⟨e, s.live, s.dout, rfl, fun _ => rfl⟩

theorem execInit_writesHashObject (bk : Selector) (s : State) : WritesHashObject (.init bk) s (execInit bk s) := by
  unfold execInit
  split
  · split
    · exact ⟨.ok, _, _, rfl, by simp⟩
    · exact raise_writesHashObject ..
  · exact raise_writesHashObject ..

theorem execUpdate_writesHashObject (len : BitVec 7) (s : State) :
    WritesHashObject (.update len) s (execUpdate len s) := by
  unfold execUpdate
  split
  · exact raise_writesHashObject ..
  · split
    · exact raise_writesHashObject ..
    · exact ⟨.ok, _, s.dout, rfl, fun _ => rfl⟩

theorem execFinal_writesHashObject (s : State) : WritesHashObject .final s (execFinal s) := by
  unfold execFinal
  split
  · exact raise_writesHashObject ..
  · exact ⟨.ok, _, _, rfl, by simp⟩

/-- Settles O43: of the window's registers only STATUS reads the live context and the flags. -/
theorem hashCommandsFrame : Obligations.HashCommandsFrame := by
  intro i s t hi h
  have hwrites : WritesHashObject i s (exec i s) := by
    obtain ⟨bk, rfl⟩ | ⟨len, rfl⟩ | rfl := hi
    · exact execInit_writesHashObject bk s
    · exact execUpdate_writesHashObject len s
    · exact execFinal_writesHashObject s
  obtain ⟨code, c, d, he, hdout⟩ := hwrites
  cases he.symm.trans h
  refine ⟨rfl, rfl, rfl, rfl, rfl, rfl, rfl, rfl, rfl, rfl, rfl, rfl, hdout, fun r hstatus herr hr => ?_⟩
  cases r with
  | status => exact absurd rfl hstatus
  | err => exact absurd rfl herr
  | dout => cases hr
  | _ => rfl

end Sys2Proof.Machine
end

section
/-!
A message as a whole: the pieces of any cut are appended as one string, and from an empty buffer that is HASH's own absorption
block by block (spec/44_hash_commands.md R157, R158): O44, O45.
-/

namespace Sys2Proof.Machine

/-! ### The pieces of a message -/

/-- LOADDIN of a piece and one UPDATE append the piece (R155). -/
theorem exec_update_withDin {s : State} {c : List Byte} (hphase : s.live.phase = .absorb) (hc : c.length ≤ 32) :
    exec (.update (BitVec.ofNat 7 c.length)) (s.withDin c)
      = finish { s.withDin c with live := bufAppendAll s.live c } := by
  have hlen : (BitVec.ofNat 7 c.length).toNat = c.length := by simp; omega
  rw [exec_update_of_absorb (by exact hphase) (by omega), hlen, withDin_din, bytesOf_pack_take c 8 hc, withDin_live]
  rfl

/-- The pieces of a message are appended as the message would be in one (R157). -/
theorem feedPieces_of_absorb (ps : List (List Byte)) {s : State} (hphase : s.live.phase = .absorb)
    (hps : ∀ c ∈ ps, c.length ≤ 32) : ∃ t, feedPieces ps s = .next t ∧ t.live = bufAppendAll s.live ps.flatten := by
  induction ps generalizing s with
  | nil => exact ⟨s, rfl, rfl⟩
  | cons c cs ih =>
    obtain ⟨hc, hcs⟩ := List.forall_mem_cons.mp hps
    have hstep := exec_update_withDin hphase hc
    obtain ⟨t, ht, hlive⟩ := ih (s := complete .ok false { s.withDin c with live := bufAppendAll s.live c })
      (by simpa using hphase) hcs
    refine ⟨t, ?_, ?_⟩
    · rw [feedPieces, hstep]
      exact ht
    · rw [hlive, List.flatten_cons, bufAppendAll_append]
      rfl

/-- Settles O44: both cuts append the same bytes. -/
theorem chunkingInvariance : Obligations.ChunkingInvariance := by
  intro s ps qs hphase hps hqs hflat
  obtain ⟨t, ht, hlive⟩ := feedPieces_of_absorb ps hphase hps
  obtain ⟨u, hu, hlive'⟩ := feedPieces_of_absorb qs hphase hqs
  exact ⟨t, u, ht, hu, by rw [hlive, hlive', hflat]⟩

/-! ### HASH -/

/-- Past its first 32 bytes a message has the blocks of the rest. -/
theorem messageBlock_append_succ {b : List Byte} (hb : b.length = 32) (m : List Byte) (t : Nat) :
    messageBlock (b ++ m) (t + 1) = messageBlock m t := by
  simp only [messageBlock]
  congr 1
  funext j
  rw [List.getD_append_right _ _ _ _ (by omega), hb, show 32 * (t + 1) + j.val - 32 = 32 * t + j.val by omega]

theorem messageBlock_append_zero {b : List Byte} (hb : b.length = 32) (m : List Byte) :
    messageBlock (b ++ m) 0 = messageBlock b 0 := by
  simp only [messageBlock]
  congr 1
  funext j
  rw [List.getD_append _ _ _ _ (by omega)]

theorem wholeBlocks_append {b : List Byte} (hb : b.length = 32) (m : List Byte) :
    (b ++ m).length / 32 = m.length / 32 + 1 := by
  rw [List.length_append, hb, Nat.add_div_left _ (by omega)]

theorem absorbWhole_append {b : List Byte} (hb : b.length = 32) (r : BitVec 8) (st : CoreState) (m : List Byte) :
    absorbWhole r st (b ++ m) = absorbWhole r (coreAbsorb st (messageBlock b 0) r) m := by
  simp only [absorbWhole, wholeBlocks_append hb, List.range_succ_eq_map, List.foldl_cons, List.foldl_map, Nat.succ_eq_add_one,
    messageBlock_append_zero hb, messageBlock_append_succ hb]

/-- A message is absorbed block by block from its head (R158). -/
theorem absorbMessage_append {b : List Byte} (hb : b.length = 32) (r : BitVec 8) (st : CoreState) (m : List Byte) :
    absorbMessage r st (b ++ m) = absorbMessage r (coreAbsorb st (messageBlock b 0) r) m := by
  have hlast : lastBlock (b ++ m) = lastBlock m := by
    rw [lastBlock, wholeBlocks_append hb, List.append_assoc, messageBlock_append_succ hb, lastBlock]
  rw [absorbMessage, absorbMessage, absorbWhole_append hb, hlast]

/-- A message shorter than a block is absorbed as its last block alone (R158). -/
theorem absorbMessage_short {m : List Byte} (hm : m.length < 32) (r : BitVec 8) (st : CoreState) :
    absorbMessage r st m = coreAbsorb st (messageBlock (m ++ [0x80]) 0) r := by
  simp [absorbMessage, absorbWhole, lastBlock, Nat.div_eq_of_lt hm]

/-- 32 bytes from an empty buffer are one block, and leave the buffer empty (R151). -/
theorem bufAppendAll_block {c : Live} (hn : c.n = 0) (hbuf : c.buf = zeroBlock) {b : List Byte} (hb : b.length = 32) :
    bufAppendAll c b = { c with s := coreAbsorb c.s (messageBlock b 0) c.lp.r } := by
  have hblk : bufferWith c b = messageBlock b 0 := by
    ext i hi
    simp [bufferWith, messageBlock, hn, hb]
  rw [bufAppendAll_full c b (by omega) (by omega), hblk, Live.mk.injEq]
  refine ⟨rfl, ?_, ?_, rfl, rfl, rfl, rfl⟩
  · ext i hi
    simp [hbuf, zeroBlock, hn, hb]
  · apply Fin.ext
    simp [hn, hb]

/-- Fewer than 32 bytes from an empty buffer are padded to the last block of R158 (R152). -/
theorem padBlock_bufAppendAll_short {c : Live} (hn : c.n = 0) (hbuf : c.buf = zeroBlock) {m : List Byte}
    (hm : m.length < 32) :
    (padBlock (bufAppendAll c m)).s = coreAbsorb c.s (messageBlock (m ++ [0x80]) 0) c.lp.r := by
  have hblk : (bufferWith c m).set m.length 0x80 = messageBlock (m ++ [0x80]) 0 := by
    ext1 i hi
    simp only [bufferWith, messageBlock, hn, hbuf, zeroBlock, Vector.getElem_set, Vector.getElem_ofFn, Fin.getElem_fin,
      Vector.getElem_replicate, Fin.val_zero, Nat.not_lt_zero, if_false, Nat.sub_zero, Nat.mul_zero, Nat.zero_add]
    obtain hlt | rfl | hgt := Nat.lt_trichotomy i m.length
    · rw [if_neg hlt.ne', List.getD_append _ _ _ _ hlt, List.getD_eq_getElem _ _ hlt]
    · simp
    · rw [if_neg hgt.ne, List.getD_eq_default _ _ hgt.le, List.getD_eq_default _ _ (by simpa using hgt)]
  rw [bufAppendAll_short c m (by simpa [hn] using hm)]
  simp only [padBlock, hn, Fin.val_zero, Nat.zero_add, hblk]

/-- From an empty buffer BUF_APPEND and PAD_BLOCK absorb the blocks of the message (R151, R152, R158). -/
theorem padBlock_bufAppendAll_s (c : Live) (hn : c.n = 0) (hbuf : c.buf = zeroBlock) (m : List Byte) :
    (padBlock (bufAppendAll c m)).s = absorbMessage c.lp.r c.s m := by
  by_cases hm : m.length < 32
  · rw [padBlock_bufAppendAll_short hn hbuf hm, absorbMessage_short hm]
  · have hb : (m.take 32).length = 32 := by simp; omega
    have hrest := padBlock_bufAppendAll_s { c with s := coreAbsorb c.s (messageBlock (m.take 32) 0) c.lp.r } hn hbuf
      (m.drop 32)
    rw [← List.take_append_drop 32 m, bufAppendAll_append, bufAppendAll_block hn hbuf hb, hrest,
      absorbMessage_append hb]
termination_by m.length
decreasing_by simp; omega

/-- The digest of an object that has taken a message since its start (R158, R174). -/
theorem digestOf_startObject (p : HashParams) (st : CoreState) (mac : Bool) (k : Backend) (m : List Byte) :
    digestOf (bufAppendAll (startObject p st mac k) m) = coreOut (coreFinal (absorbMessage p.r st m) p.f) p.h := by
  rw [digestOf, finalized, padBlock_bufAppendAll_s _ rfl rfl, bufAppendAll_lp]
  rfl

/-- The bytes of the digest window (R156). -/
theorem bytesOf_digestWindow {out : List Byte} (h : out.length ≤ 64) :
    bytesOf (digestWindow out) = out ++ List.replicate (64 - out.length) 0 := by
  rw [digestWindow, bytesOf_packBytes]
  refine List.ext_getElem (by simp; omega) fun j hj hj' => ?_
  simp only [List.getElem_map, List.getElem_range, List.getElem_append, List.getElem_replicate]
  split
  · exact List.getD_eq_getElem _ _ ‹_›
  · exact List.getD_eq_default _ _ (by omega)

/-- A start command that completes, the pieces of a message, FINAL: DOUT is the digest of the object with the whole message
appended. -/
theorem digestRun_of_started {start : Instr} {s t : State} (hstart : exec start s = .next t)
    (hphase : t.live.phase = .absorb) {ps : List (List Byte)} (hps : ∀ c ∈ ps, c.length ≤ 32) :
    ∃ u, digestRun start ps s = .next u ∧ u.err = .ok
      ∧ u.dout = digestWindow (digestOf (bufAppendAll t.live ps.flatten)) := by
  obtain ⟨v, hv, hlive⟩ := feedPieces_of_absorb ps hphase hps
  have hfinal := exec_final_of_absorb (s := v) (by rw [hlive, bufAppendAll_phase, hphase])
  have hrun : digestRun start ps s = exec .final v := by simp only [digestRun, hstart, hv]
  rw [hlive] at hfinal
  exact ⟨_, hrun.trans hfinal, rfl, rfl⟩

/-- Settles O45: the object INIT starts, with the message appended, has the digest HASH. -/
theorem digestFunction : Obligations.DigestFunction := by
  intro s bk ps hlow hhigh hsel hps
  obtain ⟨k, hk⟩ := Option.isSome_iff_exists.mp hsel
  have hinit := exec_init_of_selected ((legalH_iff _).mpr ⟨hlow, hhigh⟩) hk
  obtain ⟨t, hrun, herr, hdout⟩ := digestRun_of_started hinit rfl hps
  refine ⟨t, hrun, herr, ?_⟩
  have hdigest : t.dout = digestWindow (hashFunction s.param ps.flatten) :=
    hdout.trans (congrArg digestWindow (digestOf_startObject s.param _ false k _))
  have hlength : (hashFunction s.param ps.flatten).length = s.param.h.toNat := coreOut_length _ _
  rw [hdigest, bytesOf_digestWindow (by omega), hlength]

end Sys2Proof.Machine
end

section
/-!
The MAC commands: MAC_INIT and its errors, VERIFY, what the two leave unchanged, and a MAC as the hash of the key followed by the
message (spec/45_mac_commands.md R171 to R174): O46 to O51.
-/

namespace Sys2Proof.Machine

/-! ### MAC_INIT -/

theorem exec_macInit_of_illegal {s : State} (keylen : BitVec 7) (sel : Selector) (hlegal : legalH s.param.h = false) :
    exec (.macInit keylen sel) s = raise .invalidParameter { s with key := zeroWords 16 } := by
  simp [exec, execMacInit, hlegal]

theorem exec_macInit_of_keylen {s : State} {keylen : BitVec 7} (sel : Selector) (hlegal : legalH s.param.h = true)
    (hlen : keylen.toNat ≠ 64) :
    exec (.macInit keylen sel) s = raise .invalidKeyLength { s with key := zeroWords 16 } := by
  simp only [exec, execMacInit, hlegal, hlen, if_true, if_false]

/-- Settles O46: the object `startObject` makes of the state after the key's two blocks. -/
theorem macInitResult : Obligations.MacInitResult := by
  intro s bk k hlow hhigh hsel
  have hfirst : windowBlock s.key 0 = Vector.ofFn fun j => winByte s.key j.val := by simp only [windowBlock, Nat.zero_add]
  rw [exec_macInit_of_selected ((legalH_iff _).mpr ⟨hlow, hhigh⟩) rfl hsel, finish_eq, macState, hfirst]
  rfl

/-- Settles O47: the checks in their order, KEY cleared before each. -/
theorem macInitErrors : Obligations.MacInitErrors := by
  intro s keylen bk
  refine ⟨fun hout => ?_, fun hlow hhigh hlen => ?_, fun hlow hhigh hlen hnone => ?_⟩
  · have hlegal : legalH s.param.h = false := by
      rw [← Bool.not_eq_true, legalH_iff]
      omega
    rw [exec_macInit_of_illegal keylen bk hlegal, raise_eq (by decide)]
  · rw [exec_macInit_of_keylen bk ((legalH_iff _).mpr ⟨hlow, hhigh⟩) hlen, raise_eq (by decide)]
  · rw [exec_macInit_of_unavailable ((legalH_iff _).mpr ⟨hlow, hhigh⟩) hlen hnone, raise_eq (by decide)]

/-! ### VERIFY -/

/-- The or of the masked differences is zero where it starts at zero and every difference under the mask is zero. -/
theorem foldl_or_eq_zero_iff (p : Nat → Prop) [DecidablePred p] (f : Nat → Byte) (l : List Nat) (d : Byte) :
    l.foldl (fun d j => if p j then d ||| f j else d) d = 0 ↔ d = 0 ∧ ∀ j ∈ l, p j → f j = 0 := by
  induction l generalizing d with
  | nil => simp
  | cons j l ih =>
    rw [List.foldl_cons, ih, List.forall_mem_cons]
    by_cases hp : p j
    · simp [hp, and_assoc]
    · simp [hp]

/-- The difference of R172 is zero exactly where the tag agrees with the digest below H. -/
theorem tagDiff_eq_zero_iff (tag : Vector Word 16) {h : BitVec 7} (hh : h.toNat ≤ 64) (out : List Byte) :
    tagDiff tag h out = 0 ↔ ∀ j < h.toNat, winByte tag j = out.getD j 0 := by
  rw [tagDiff, foldl_or_eq_zero_iff (· < h.toNat)]
  simp only [List.mem_range, true_and]
  exact ⟨fun hzero j hj => BitVec.xor_eq_zero_iff.mp (hzero j (by omega) hj),
    fun heq j _ hj => BitVec.xor_eq_zero_iff.mpr (heq j hj)⟩

theorem exec_verify_of_mac {s : State} {taglen : BitVec 7} (hphase : s.live.phase = .absorb) (hmac : s.live.mac = true)
    (hlen : taglen.toNat ≤ 64) :
    exec (.verify taglen) s = .next
      { s with
        err := .ok
        vok := decide (tagDiff s.tag s.live.lp.h (digestOf s.live) = 0) && decide (taglen = s.live.lp.h)
        pending := none } := by
  simp [exec, execVerify, complete, Nat.not_lt.mpr hlen, (guardAbsorb_eq_none _).mpr hphase, hmac]

theorem exec_verify_of_not_mac {s : State} {taglen : BitVec 7} (hphase : s.live.phase = .absorb)
    (hmac : s.live.mac = false) (hlen : taglen.toNat ≤ 64) : exec (.verify taglen) s = raise .notMac s := by
  simp only [exec, execVerify, if_neg (Nat.not_lt.mpr hlen), (guardAbsorb_eq_none _).mpr hphase, hmac, Bool.false_eq_true,
    if_false]

/-- Settles O48: TAG is compared with the digest FINAL puts into DOUT. -/
theorem verifyMatchesFinal : Obligations.VerifyMatchesFinal := by
  intro s taglen hphase hmac hlen hh
  have hdigest : (∀ j < s.live.lp.h.toNat, winByte s.tag j = (digestOf s.live).getD j 0)
      ↔ ∀ j < s.live.lp.h.toNat, winByte s.tag j = winByte (digestWindow (digestOf s.live)) j :=
    forall₂_congr fun j hj => by rw [winByte_digestWindow _ (by omega)]
  refine ⟨_, _, exec_verify_of_mac hphase hmac hlen, exec_final_of_absorb hphase, ?_⟩
  rw [Bool.and_eq_true, decide_eq_true_iff, decide_eq_true_iff, tagDiff_eq_zero_iff _ hh, hdigest]
  exact and_comm

/-- Settles O49: the MAC check comes after the phase check. -/
theorem verifyNeedsMacObject : Obligations.VerifyNeedsMacObject := by
  intro s taglen hphase hmac hlen
  rw [exec_verify_of_not_mac hphase hmac hlen, raise_eq (by decide)]

/-! ### The frame -/

/-- The outcome completes the command with only KEY, the live context, DOUT and the flags written: KEY never by VERIFY, the context
and DOUT on success alone and never by VERIFY (R171, R172, R202). -/
abbrev WritesMacObject (i : Instr) (s : State) (o : Result) : Prop :=
  ∃ code eq key c d, o = .next (complete code eq { s with key := key, live := c, dout := d })
    ∧ ((∃ taglen, i = .verify taglen) → key = s.key)
    ∧ (((∃ taglen, i = .verify taglen) ∨ code ≠ .ok) → c = s.live ∧ d = s.dout)

theorem execMacInit_writesMacObject (keylen : BitVec 7) (bk : Selector) (s : State) :
    WritesMacObject (.macInit keylen bk) s (execMacInit keylen bk s) := by
  have fails (e : ErrCode) : WritesMacObject (.macInit keylen bk) s (raise e { s with key := zeroWords 16 }) :=
    ⟨e, false, _, s.live, s.dout, rfl, by simp, fun _ => ⟨rfl, rfl⟩⟩
  unfold execMacInit
  split
  · split
    · split
      · exact ⟨.ok, false, _, _, _, rfl, by simp, by simp⟩
      · exact fails _
    · exact fails _
  · exact fails _

theorem execVerify_writesMacObject (taglen : BitVec 7) (s : State) :
    WritesMacObject (.verify taglen) s (execVerify taglen s) := by
  have keeps (code : ErrCode) (eq : Bool) : WritesMacObject (.verify taglen) s (.next (complete code eq s)) :=
    ⟨code, eq, s.key, s.live, s.dout, rfl, fun _ => rfl, fun _ => ⟨rfl, rfl⟩⟩
  unfold execVerify
  split
  · exact keeps ..
  · split
    · exact keeps ..
    · split
      · exact keeps ..
      · exact keeps ..

/-- Settles O50: of the window's registers only STATUS reads the live context, and none reads KEY. -/
theorem macCommandsFrame : Obligations.MacCommandsFrame := by
  intro i s t hi h
  have hwrites : WritesMacObject i s (exec i s) := by
    obtain ⟨keylen, bk, rfl⟩ | ⟨taglen, rfl⟩ := hi
    · exact execMacInit_writesMacObject keylen bk s
    · exact execVerify_writesMacObject taglen s
  obtain ⟨code, eq, key, c, d, he, hkey, hobject⟩ := hwrites
  cases he.symm.trans h
  refine ⟨rfl, rfl, rfl, rfl, rfl, rfl, rfl, rfl, rfl, rfl, rfl, hkey, hobject, fun r hstatus herr hr => ?_⟩
  cases r with
  | status => exact absurd rfl hstatus
  | err => exact absurd rfl herr
  | dout => cases hr
  | _ => rfl

/-! ### A MAC as a hash -/

/-- A block read from a window packed from a byte string is that block of the string (R63, R171). -/
theorem windowBlock_packBytes (key : List Byte) {k t : Nat} (ht : 32 * (t + 1) ≤ 4 * k) :
    windowBlock (packBytes k fun j => key.getD j 0) (32 * t) = messageBlock key t := by
  ext1 i hi
  simp only [windowBlock, messageBlock, Vector.getElem_ofFn]
  exact winByte_packBytes k _ _ (by omega)

/-- The two blocks of a 64-byte key are the first two that HASH absorbs of any message it begins (R158, R171). -/
theorem absorbMessage_key_append {key : List Byte} (hkey : key.length = 64) (r : BitVec 8) (st : CoreState) (m : List Byte) :
    absorbMessage r st (key ++ m)
      = absorbMessage r (coreAbsorb (coreAbsorb st (messageBlock key 0) r) (messageBlock key 1) r) m := by
  obtain ⟨a, b, rfl, ha⟩ : ∃ a b, key = a ++ b ∧ a.length = 32 :=
    ⟨key.take 32, key.drop 32, (List.take_append_drop 32 key).symm, by simp [hkey]⟩
  have hb : b.length = 32 := by
    rw [List.length_append] at hkey
    omega
  rw [List.append_assoc, absorbMessage_append ha, absorbMessage_append hb, messageBlock_append_zero ha,
    messageBlock_append_succ ha b 0]

/-- The object MAC_INIT makes of a key in KEY, with a message appended, has the digest of the key and the message (R174). -/
theorem digestOf_macObject (s : State) {key : List Byte} (hkey : key.length = 64) (k : Backend) (m : List Byte) :
    digestOf (bufAppendAll (startObject s.param (macState s.param (s.withKey key).key) true k) m)
      = hashFunction s.param (key ++ m) := by
  have hfirst : windowBlock (s.withKey key).key 0 = messageBlock key 0 := windowBlock_packBytes key (t := 0) (by omega)
  have hsecond : windowBlock (s.withKey key).key 32 = messageBlock key 1 := windowBlock_packBytes key (t := 1) (by omega)
  rw [digestOf_startObject, macState, hfirst, hsecond, hashFunction, absorbMessage_key_append hkey]

/-- Settles O51: both runs leave the digest window of HASH(K ++ m). -/
theorem macEqualsPrefixedHash : Obligations.MacEqualsPrefixedHash := by
  intro s bk key ps qs hlow hhigh hsel hkey hps hqs hflat
  obtain ⟨k, hk⟩ := Option.isSome_iff_exists.mp hsel
  have hlegal : legalH s.param.h = true := (legalH_iff _).mpr ⟨hlow, hhigh⟩
  have hk' : selectBackend (s.withKey key) bk = some k := by
    rw [← hk]
    cases bk <;> rfl
  obtain ⟨t, ht, herr, htdout⟩ :=
    digestRun_of_started (exec_macInit_of_selected (s := s.withKey key) (keylen := 64) hlegal rfl hk') rfl hps
  obtain ⟨u, hu, -, hudout⟩ := digestRun_of_started (exec_init_of_selected hlegal hk) rfl hqs
  have hmac : t.dout = digestWindow (hashFunction s.param (key ++ ps.flatten)) :=
    htdout.trans (congrArg digestWindow (digestOf_macObject s hkey k _))
  have hhash : u.dout = digestWindow (hashFunction s.param (key ++ ps.flatten)) := by
    rw [← hflat]
    exact hudout.trans (congrArg digestWindow (digestOf_startObject s.param _ false k _))
  have hlength : (hashFunction s.param (key ++ ps.flatten)).length = s.param.h.toNat := coreOut_length _ _
  refine ⟨t, u, ht, hu, herr, hmac.trans hhash.symm, ?_⟩
  rw [hmac, bytesOf_digestWindow (by omega), ← hlength, List.take_left]

end Sys2Proof.Machine
end

section
/-!
The words CTX_SAVE lays a context out in, field by field, and which staging contexts CTX_LOAD accepts
(spec/46_context_commands.md R181, R182; spec/10_state.md R45, R46).
-/

namespace Sys2Proof.Machine

/-! ### The fields of CM -/

/-- The phase CM names, by its code in CM[5:4] (R45). -/
theorem cmPhase_iff_code (cm : Word) :
    (cmPhase cm = none ↔ (cm.extractLsb' 4 2).toNat = 3) ∧ (cmPhase cm = some .uninit ↔ (cm.extractLsb' 4 2).toNat = 0)
    ∧ (cmPhase cm = some .done ↔ (cm.extractLsb' 4 2).toNat = 2) := by
  unfold cmPhase
  generalize cm.extractLsb' 4 2 = field
  revert field
  decide

theorem cmN_eq_zero_iff (cm : Word) : cmN cm = 0 ↔ cm.extractLsb' 16 5 = 0 :=
  ⟨fun h => BitVec.eq_of_toFin_eq h, fun h => congrArg BitVec.toFin h⟩

theorem cmReserved_iff (cm : Word) : cmReserved cm = true ↔ cm &&& ~~~(0x001F0770 : Word) ≠ 0 := decide_eq_true_iff

theorem backendOfId_eq_none_iff (k : BitVec 3) : backendOfId k = none ↔ k.toNat = 0 ∨ 5 < k.toNat := by
  revert k
  decide

theorem backendOfId_eq_some_iff (k : BitVec 3) (b : Backend) : backendOfId k = some b ↔ k.toNat = backendId b := by
  cases b <;> revert k <;> decide

/-! ### The fields of a saved context -/

theorem cmPhase_contextFields (c : Live) : cmPhase (contextFields c) = some c.phase := by
  obtain ⟨hphase, -⟩ := contextFields_fields c
  rw [cmPhase, hphase]
  cases c.phase <;> rfl

theorem cmMac_contextFields (c : Live) : cmMac (contextFields c) = c.mac := by
  obtain ⟨-, hmac, -⟩ := contextFields_fields c
  exact hmac

theorem cmN_contextFields (c : Live) : cmN (contextFields c) = c.n := by
  obtain ⟨-, -, -, -, -, hn, -⟩ := contextFields_fields c
  rw [cmN, hn]
  exact Fin.ext (Nat.mod_eq_of_lt c.n.isLt)

/-- The context fields lie inside the fields R45 gives CM. -/
theorem contextFields_and_mask (c : Live) : contextFields c &&& 0x001F0770 = contextFields c := by
  have hphase : (phaseCode c.phase <<< 4) &&& (0x001F0770 : Word) = phaseCode c.phase <<< 4 := by
    cases c.phase <;> decide
  have hmac : bitWord 6 c.mac &&& (0x001F0770 : Word) = bitWord 6 c.mac := by
    cases c.mac <;> decide
  have hbk : (bkCode c.bk <<< 8) &&& (0x001F0770 : Word) = bkCode c.bk <<< 8 := by
    cases c.bk with
    | none => decide
    | some k => cases k <;> decide
  have hn : ∀ n : Fin 32, (BitVec.ofNat 32 n.val <<< 16) &&& (0x001F0770 : Word) = BitVec.ofNat 32 n.val <<< 16 := by
    decide
  simp only [contextFields, BitVec.and_or_distrib_right, hphase, hmac, hbk, hn]

theorem cmReserved_contextFields (c : Live) : cmReserved (contextFields c) = false := by
  rw [cmReserved, ← contextFields_and_mask, BitVec.and_assoc]
  simp

theorem winByte_stageContext (c : Live) (j : Fin 32) : winByte (stageContext c).cb j.val = c.buf[j] := by
  rw [stageContext, winByte_packBytes 8 _ _ j.isLt]
  simp [blockByte]

/-! ### The checks of CTX_LOAD -/

/-- The staging context fails a check of R182 whose error is BAD_CONTEXT. -/
abbrev BadContext (g : Staging) : Prop :=
  cmReserved g.cm = true
  ∨ cmPhase g.cm = none
  ∨ (cmPhase g.cm = some .uninit ∧ (cmMac g.cm = true ∨ cmBk g.cm ≠ 0 ∨ cmN g.cm ≠ 0))
  ∨ (cmPhase g.cm = some .done ∧ cmN g.cm ≠ 0)
  ∨ (cmPhase g.cm ≠ some .uninit ∧
      (g.cp.getLsbD 31 = true ∨ legalH (paramOfWord g.cp).h = false ∨ backendOfId (cmBk g.cm) = none))

theorem legalH_eq_false_iff (h : BitVec 7) : legalH h = false ↔ h.toNat = 0 ∨ 64 < h.toNat := by
  rw [← Bool.not_eq_true, legalH_iff]
  omega

/-- The checks of BAD_CONTEXT read off the bits of CM and CP (R182). -/
theorem badContext_iff (g : Staging) :
    BadContext g ↔
      g.cm &&& ~~~(0x001F0770 : Word) ≠ 0
      ∨ (g.cm.extractLsb' 4 2).toNat = 3
      ∨ ((g.cm.extractLsb' 4 2).toNat = 0
          ∧ (g.cm.getLsbD 6 = true ∨ g.cm.extractLsb' 8 3 ≠ 0 ∨ g.cm.extractLsb' 16 5 ≠ 0))
      ∨ ((g.cm.extractLsb' 4 2).toNat = 2 ∧ g.cm.extractLsb' 16 5 ≠ 0)
      ∨ ((g.cm.extractLsb' 4 2).toNat ≠ 0 ∧ (g.cp.getLsbD 31 = true ∨ (g.cp.extractLsb' 24 7).toNat = 0
          ∨ 64 < (g.cp.extractLsb' 24 7).toNat ∨ (g.cm.extractLsb' 8 3).toNat = 0
          ∨ 5 < (g.cm.extractLsb' 8 3).toNat)) := by
  simp only [BadContext, cmReserved_iff, cmPhase_iff_code, cmN_eq_zero_iff, legalH_eq_false_iff,
    backendOfId_eq_none_iff, cmMac, cmBk, paramOfWord, ne_eq, or_assoc]

theorem loadContext_of_bad (caps : Word) {g : Staging} (hbad : BadContext g) :
    loadContext caps g = .error .badContext := by
  by_cases hres : cmReserved g.cm = true
  · simp only [loadContext, hres, if_true]
  cases hph : cmPhase g.cm with
  | none => simp only [loadContext, hres, hph, ite_self]
  | some ph =>
    simp only [BadContext, hres, hph] at hbad
    cases ph with
    | uninit =>
      have hfield : cmMac g.cm = true ∨ cmBk g.cm ≠ 0 ∨ cmN g.cm ≠ 0 := by simpa using hbad
      simp only [loadContext, hres, hph, if_pos hfield, ite_self]
    | absorb | done =>
      simp only [loadContext, hres, hph]
      grind

theorem loadContext_of_uninit (caps : Word) {g : Staging} (hgood : ¬ BadContext g) (hph : cmPhase g.cm = some .uninit) :
    loadContext caps g = .ok Live.uninit := by
  simp only [BadContext, not_or, not_and] at hgood
  obtain ⟨hres, -, hzero, -⟩ := hgood
  have hzero : ¬ (cmMac g.cm = true ∨ cmBk g.cm ≠ 0 ∨ cmN g.cm ≠ 0) := by simpa using hzero hph
  simp only [loadContext, hres, hph, if_neg hzero, Bool.false_eq_true, if_false]

/-- A staging context that passes the checks and is not UNINIT names a phase and a backend. -/
theorem object_of_not_bad {g : Staging} (hgood : ¬ BadContext g) (huninit : cmPhase g.cm ≠ some .uninit) :
    ∃ ph k, cmPhase g.cm = some ph ∧ ph ≠ .uninit ∧ backendOfId (cmBk g.cm) = some k := by
  simp only [BadContext, not_or, not_and] at hgood
  obtain ⟨-, hphase, -, -, hobject⟩ := hgood
  obtain ⟨-, -, hbackend⟩ := hobject huninit
  obtain ⟨ph, hph⟩ := Option.ne_none_iff_exists'.mp hphase
  obtain ⟨k, hk⟩ := Option.ne_none_iff_exists'.mp hbackend
  exact ⟨ph, k, hph, fun h => huninit (hph.trans (congrArg some h)), hk⟩

/-- Past the checks of BAD_CONTEXT only the backend named can be missing (R182). -/
theorem loadContext_of_object (caps : Word) {g : Staging} {ph : Phase} {k : Backend} (hgood : ¬ BadContext g)
    (hph : cmPhase g.cm = some ph) (hne : ph ≠ .uninit) (hk : backendOfId (cmBk g.cm) = some k) :
    loadContext caps g = if available caps k then .ok (loadedObject g ph k) else .error .unavailableBackend := by
  simp only [BadContext, hph, hk] at hgood
  cases ph with
  | uninit => exact absurd rfl hne
  | absorb | done =>
    simp only [loadContext, loadedObject, hph, hk]
    grind

theorem exec_ctxLoad_of_ok {s : State} {c : Live} (h : loadContext s.caps s.staging = .ok c) :
    exec .ctxLoad s = finish { s with live := c } := by
  simp only [exec, execCtxLoad, h]

theorem exec_ctxLoad_of_error {s : State} {e : ErrCode} (h : loadContext s.caps s.staging = .error e) :
    exec .ctxLoad s = raise e s := by
  simp only [exec, execCtxLoad, h]

/-! ### A saved context is accepted -/

/-- A saved context that meets R32 passes every check of CTX_LOAD but for the backend's presence (R184). -/
theorem stageContext_not_bad {caps : Word} {c : Live} (hc : c.Inv caps) : ¬ BadContext (stageContext c) := by
  obtain ⟨-, hn, huninit, hobject⟩ := hc
  by_cases hph : c.phase = .uninit
  · rw [huninit hph]
    decide
  · obtain ⟨hbk, hlow, hhigh⟩ := hobject hph
    have hlegal : legalH c.lp.h = true := (legalH_iff _).mpr ⟨hlow, hhigh⟩
    have hdone : c.phase = .done → c.n = 0 := fun h => hn (by simp [h])
    have hnone : c.bk ≠ none := fun h => by simp [h] at hbk
    simp only [BadContext, stageContext, cmReserved_contextFields, cmPhase_contextFields, cmN_contextFields,
      backendOfId_cmBk_contextFields, paramOfWord_paramWord, paramWord_bit31]
    simpa [hph, hlegal, hnone] using hdone

/-- The object made of a saved context is that context, where its buffer is 0 at and above N (R184). -/
theorem loadedObject_stageContext {c : Live} {k : Backend} (hzero : ∀ j : Fin 32, c.n.val ≤ j.val → c.buf[j] = 0)
    (hk : c.bk = some k) : loadedObject (stageContext c) c.phase k = c := by
  have hbuf : (loadedObject (stageContext c) c.phase k).buf = c.buf := by
    ext1 i hi
    have hbyte : winByte (stageContext c).cb i = c.buf[i] := winByte_stageContext c ⟨i, hi⟩
    have hn : cmN (stageContext c).cm = c.n := cmN_contextFields c
    simp only [loadedObject, Vector.getElem_ofFn, hbyte, hn]
    split
    · rfl
    · exact (hzero ⟨i, hi⟩ (Nat.le_of_not_lt ‹_›)).symm
  calc loadedObject (stageContext c) c.phase k
      = { c with buf := (loadedObject (stageContext c) c.phase k).buf, bk := some k } := by
        simp only [loadedObject, stageContext, cmN_contextFields, cmMac_contextFields, paramOfWord_paramWord]
    _ = c := by rw [hbuf, ← hk]

theorem loadContext_stageContext {caps : Word} {c : Live} (hc : c.Inv caps) :
    loadContext caps (stageContext c) = .ok c := by
  have hgood := stageContext_not_bad hc
  have hcm : cmPhase (stageContext c).cm = some c.phase := cmPhase_contextFields c
  obtain ⟨hzero, -, huninit, hobject⟩ := hc
  by_cases hph : c.phase = .uninit
  · rw [loadContext_of_uninit caps hgood (hcm.trans (congrArg some hph)), huninit hph]
  · obtain ⟨hbk, -⟩ := hobject hph
    obtain ⟨k, hk, hka⟩ := (Option.any_eq_true _ _).mp hbk
    have hnamed : backendOfId (cmBk (stageContext c).cm) = some k := (backendOfId_cmBk_contextFields c).trans hk
    rw [loadContext_of_object caps hgood hcm hph hnamed, if_pos hka, loadedObject_stageContext hzero hk]

end Sys2Proof.Machine
end

section
/-!
NOP, CTX_SAVE, CTX_LOAD and ZEROIZE: their results, their errors, what they leave unchanged, and the clone of a context
(spec/46_context_commands.md R180 to R184): O52 to O58.
-/

namespace Sys2Proof.Machine

/-- Settles O52: NOP is COMPLETE(OK) alone. -/
theorem nopResult : Obligations.NopResult := finish_eq

/-- Settles O53: the words of `stageContext`, field by field. -/
theorem ctxSaveResult : Obligations.CtxSaveResult := by
  intro s
  obtain ⟨hphase, hmac, -, hbk, -, hn, -⟩ := contextFields_fields s.live
  obtain ⟨hi, hr, hf, hh⟩ := paramWord_fields s.live.lp
  refine ⟨_, _, _, finish_eq _, winByte_stageContext s.live, contextFields_and_mask s.live, hphase, hmac, hbk, ?_, hi, hr, hf,
    hh, paramWord_bit31 s.live.lp⟩
  rw [hn]
  exact Nat.mod_eq_of_lt s.live.n.isLt

/-- Settles O54: no check fails, and the context is the UNINIT one or the object the staging context describes. -/
theorem ctxLoadResult : Obligations.CtxLoadResult := by
  intro s ph k g hmask
  have hres : cmReserved g.cm = false := by
    rw [← Bool.not_eq_true, cmReserved_iff]
    exact not_not.mpr hmask
  refine ⟨fun hph hcm => ?_, fun hph hne hdone h31 hlow hhigh hid hka => ?_⟩
  · have hgood : ¬ BadContext g := by
      rw [badContext_iff, hcm]
      simp
    rw [exec_ctxLoad_of_ok (loadContext_of_uninit s.caps hgood hph), finish_eq]
  · have hk : backendOfId (cmBk g.cm) = some k := (backendOfId_eq_some_iff _ _).mpr hid
    have hlegal : legalH (paramOfWord g.cp).h = true := (legalH_iff _).mpr ⟨hlow, hhigh⟩
    have hgood : ¬ BadContext g := by
      have hn : ph = .done → cmN g.cm = 0 := fun h => (cmN_eq_zero_iff g.cm).mpr (hdone h)
      simp only [BadContext, hres, hph, hk, h31, hlegal]
      simpa [hne] using hn
    have hload : loadContext s.caps g = .ok (loadedObject g ph k) :=
      (loadContext_of_object s.caps hgood hph hne hk).trans (if_pos hka)
    refine ⟨loadedObject g ph k, by rw [exec_ctxLoad_of_ok hload, finish_eq], rfl, fun j => ?_, rfl, rfl, rfl, rfl, rfl, rfl,
      rfl, rfl⟩
    exact Vector.getElem_ofFn j.isLt

/-- Settles O55: `badContext_iff` lists the checks, and past them only the backend can be missing. -/
theorem ctxLoadErrors : Obligations.CtxLoadErrors := by
  intro s g phaseField fails bad
  refine ⟨fun hbad => ?_, fun hgood hphase habsent => ?_⟩
  · have hload := loadContext_of_bad s.caps ((badContext_iff g).mpr hbad)
    exact (exec_ctxLoad_of_error hload).trans (raise_eq (by decide) s)
  · have hgood : ¬ BadContext g := mt (badContext_iff g).mp hgood
    obtain ⟨-, huninit, -⟩ := cmPhase_iff_code g.cm
    obtain ⟨ph, k, hph, hne, hk⟩ := object_of_not_bad hgood (mt huninit.mp hphase)
    have hid : (g.cm.extractLsb' 8 3).toNat = backendId k := (backendOfId_eq_some_iff _ _).mp hk
    have hka : ¬ available s.caps k = true := by
      rw [available, ← hid]
      exact Bool.eq_false_iff.mp habsent
    have hload : loadContext s.caps g = .error .unavailableBackend :=
      (loadContext_of_object s.caps hgood hph hne hk).trans (if_neg hka)
    exact (exec_ctxLoad_of_error hload).trans (raise_eq (by decide) s)

/-- Settles O56: the erased state is the reset state of the instance, field by field. -/
theorem zeroizeResult : Obligations.ZeroizeResult := by
  intro s
  refine ⟨fun hpresent => ?_, fun habsent => ?_⟩
  · simp only [exec, execZeroize, hpresent, if_true, finish_eq, State.resetWith]
  · simp only [exec, execZeroize, habsent, Bool.false_eq_true, if_false]
    exact raise_eq (by decide) s

/-! ### The frame -/

/-- A command keeps the control state; where it completes OK it keeps ESTICKY too (R201). -/
theorem exec_keepsControl {i : Instr} {s t : State} (h : exec i s = .next t) :
    t.params = s.params ∧ t.caps = s.caps ∧ t.ovr = s.ovr ∧ t.param = s.param ∧ t.events = s.events
    ∧ t.returned = s.returned ∧ t.unpolled = s.unpolled ∧ t.draws = s.draws ∧ (t.err = .ok → t.esticky = s.esticky) := by
  obtain ⟨code, eq, u, he, ⟨hparams, hcaps, hesticky, hovr, hparam, hevents, hreturned, hunpolled, hdraws⟩, -⟩ :=
    exec_shape i s
  cases he.symm.trans h
  refine ⟨hparams, hcaps, hovr, hparam, hevents, hreturned, hunpolled, hdraws, fun hok => ?_⟩
  have hcode : code = .ok := hok
  simp [hcode, hesticky]

/-- NOP, CTX_SAVE and CTX_LOAD write the live context, the staging context and the flags alone: NOP neither context, CTX_SAVE the
staging one, CTX_LOAD the live one (R180 to R182). -/
theorem exec_writesContexts {i : Instr} (hi : i = .nop ∨ i = .ctxSave ∨ i = .ctxLoad) (s : State) :
    ∃ code c g, exec i s = .next (complete code false { s with live := c, staging := g })
      ∧ ((i = .nop ∨ i = .ctxSave) → c = s.live) ∧ ((i = .nop ∨ i = .ctxLoad) → g = s.staging) := by
  obtain rfl | rfl | rfl := hi
  · exact ⟨.ok, s.live, s.staging, rfl, fun _ => rfl, fun _ => rfl⟩
  · exact ⟨.ok, s.live, _, rfl, fun _ => rfl, by simp⟩
  · cases h : loadContext s.caps s.staging with
    | ok c => exact ⟨.ok, c, s.staging, exec_ctxLoad_of_ok h, by simp, fun _ => rfl⟩
    | error e => exact ⟨e, s.live, s.staging, exec_ctxLoad_of_error h, by simp, fun _ => rfl⟩

/-- Of the window only STATUS and ERR read the live context or the flags. -/
theorem regValue_complete_setLive {r : Reg} (hstatus : r ≠ .status) (herr : r ≠ .err) (code : ErrCode) (eq : Bool) (s : State)
    (c : Live) : regValue (complete code eq { s with live := c }) r = regValue s r := by
  cases r with
  | status => exact absurd rfl hstatus
  | err => exact absurd rfl herr
  | _ => rfl

/-- Settles O57: the control state by `exec_shape`, the contexts and the windows by what each command writes. -/
theorem contextCommandsFrame : Obligations.ContextCommandsFrame := by
  intro i s t hi h
  obtain ⟨hparams, hcaps, hovr, hparam, hevents, hreturned, hunpolled, hdraws, hesticky⟩ := exec_keepsControl h
  refine ⟨hparams, hcaps, hovr, hparam, hevents, hreturned, hunpolled, hdraws, hesticky, ?_⟩
  by_cases hz : i = .zeroize
  · subst hz
    simp
  have hi : i = .nop ∨ i = .ctxSave ∨ i = .ctxLoad := by simpa [hz] using hi
  obtain ⟨code, c, g, he, hlive, hstaging⟩ := exec_writesContexts hi s
  cases he.symm.trans h
  refine ⟨hlive, fun _ => ⟨rfl, rfl, rfl, rfl⟩, fun hkept r hstatus herr _ => ?_, fun _ r hstatus herr hr => ?_⟩
  · rw [hstaging hkept]
    exact regValue_complete_setLive hstatus herr code false s c
  · cases r with
    | cs | cb | cm | cp => cases hr
    | status => exact absurd rfl hstatus
    | err => exact absurd rfl herr
    | _ => rfl

/-- Settles O58: CTX_LOAD accepts what CTX_SAVE staged, and makes the same context of it. -/
theorem cloneRestoresContext : Obligations.CloneRestoresContext := by
  intro s t u hinv hsave hstaging hcaps
  have hsaved : u.staging = stageContext s.live := by
    cases hsave
    exact hstaging
  have hload : loadContext u.caps u.staging = .ok s.live := by
    rw [hsaved, hcaps]
    exact loadContext_stageContext hinv
  rw [exec_ctxLoad_of_ok hload, finish_eq]

end Sys2Proof.Machine
end

section
/-!
How a command word ends: every word completes, the flags of COMPLETE, and what an error leaves unchanged (spec/60_exceptions.md
R201, R202, R206): O8, O10, O11.
-/

namespace Sys2Proof.Machine

/-- Every command word ends in COMPLETE of a code, on a state that keeps all control state; an error leaves the state as it was
but for KEY, which MAC_INIT clears (R201, R202). -/
theorem engineStep_shape (cw : Word) (s : State) :
    ∃ code eq u, engineStep cw s = .next (complete code eq u) ∧ KeepsControl s u
      ∧ (code ≠ .ok → u = s
        ∨ (∃ keylen bk, decode s.params.hasZeroize cw = .ok (.macInit keylen bk)) ∧ u = { s with key := zeroWords 16 }) := by
  obtain ⟨i, hi, he⟩ | ⟨-, -, he⟩ := engineStep_cases cw s
  · obtain ⟨code, eq, u, hu, hkeeps, herror, -⟩ := exec_shape i s
    refine ⟨code, eq, u, he.trans hu, hkeeps, fun hcode => ?_⟩
    obtain hsame | ⟨keylen, bk, rfl, hcleared⟩ := herror hcode
    · exact .inl hsame
    · exact .inr ⟨⟨keylen, bk, hi⟩, hcleared⟩
  · exact ⟨.illegalCommand, false, s, he, ⟨rfl, rfl, rfl, rfl, rfl, rfl, rfl, rfl, rfl⟩, fun _ => .inl rfl⟩

/-- Settles O8: the engine moves, and `engineStep_shape` gives the state it completes. -/
theorem engineStepAlwaysCompletes : Obligations.EngineStepAlwaysCompletes := by
  intro s p hp hmove
  obtain ⟨_, _, u, he, ⟨-, -, -, -, -, hevents, hreturned, hunpolled, hdraws⟩, -⟩ := engineStep_shape p.cw s
  exact ⟨_, (step_engine s p hp hmove).trans he, rfl, hevents, hreturned, hunpolled, hdraws⟩

/-! ### VOK -/

/-- The comparison of R172: no difference below H, and TAGLEN = H. -/
abbrev TagMatches (s : State) (taglen : BitVec 7) : Prop :=
  tagDiff s.tag s.live.lp.h (digestOf s.live) = 0 ∧ taglen = s.live.lp.h

/-- VERIFY completes OK with the result of the comparison, or raises an error (R172). -/
theorem exec_verify_cases (taglen : BitVec 7) (s : State) :
    exec (.verify taglen) s = .next (complete .ok (decide (TagMatches s taglen)) s)
    ∨ ∃ e, e ≠ .ok ∧ exec (.verify taglen) s = raise e s := by
  simp only [exec, execVerify, Bool.decide_and]
  split
  · exact .inr ⟨_, by decide, rfl⟩
  · split
    next hguard => exact .inr ⟨_, guardAbsorb_ne_ok hguard, rfl⟩
    next =>
      split
      · exact .inl rfl
      · exact .inr ⟨_, by decide, rfl⟩

theorem exec_verify_vok_iff {taglen : BitVec 7} {s t : State} (h : exec (.verify taglen) s = .next t) :
    t.vok = true ↔ t.err = .ok ∧ TagMatches s taglen := by
  obtain hok | ⟨e, he, herror⟩ := exec_verify_cases taglen s
  · cases hok.symm.trans h
    simp
  · cases herror.symm.trans h
    simp [he]

/-- VOK is 1 only after a VERIFY that completes OK with a match (R201). -/
theorem exec_vok_iff {i : Instr} {s t : State} (h : exec i s = .next t) :
    t.vok = true ↔ ∃ taglen, i = .verify taglen ∧ t.err = .ok ∧ TagMatches s taglen := by
  refine ⟨fun hvok => ?_, ?_⟩
  · obtain ⟨code, eq, u, he, -, -, hverify⟩ := exec_shape i s
    cases he.symm.trans h
    have heq : eq = true := (Bool.and_eq_true_iff.mp hvok).2
    obtain ⟨taglen, rfl⟩ := hverify heq
    exact ⟨taglen, rfl, (exec_verify_vok_iff h).mp hvok⟩
  · rintro ⟨taglen, rfl, hmatch⟩
    exact (exec_verify_vok_iff h).mpr hmatch

theorem engineStep_vok_iff {cw : Word} {s t : State} (h : engineStep cw s = .next t) :
    t.vok = true ↔
      ∃ taglen, decode s.params.hasZeroize cw = .ok (.verify taglen) ∧ t.err = .ok ∧ TagMatches s taglen := by
  obtain ⟨i, hi, he⟩ | ⟨e, hillegal, he⟩ := engineStep_cases cw s
  · simp only [exec_vok_iff (he.symm.trans h), hi, Except.ok.injEq]
  · cases he.symm.trans h
    simp [hillegal]

/-- Settles O10: the fields COMPLETE writes, ESTICKY on top of the one the command kept. -/
theorem everyCommandCompletesWithCode : Obligations.EveryCommandCompletesWithCode := by
  intro cw s
  obtain ⟨code, eq, u, he, ⟨-, -, hesticky, -⟩, -⟩ := engineStep_shape cw s
  refine ⟨complete code eq u, he, rfl, ?_, rfl, engineStep_vok_iff he⟩
  rw [complete_esticky, complete_err, hesticky]

/-! ### Errors -/

/-- MAC_INIT clears KEY whatever its code (R171, R202). -/
theorem exec_macInit_key {keylen : BitVec 7} {bk : Selector} {s t : State} (h : exec (.macInit keylen bk) s = .next t) :
    t.key = zeroWords 16 := by
  simp only [exec, execMacInit] at h
  split at h
  · split at h
    · split at h <;> (cases h; rfl)
    · cases h; rfl
  · cases h; rfl

/-- Settles O11: an error leaves what `engineStep_shape` says, and MAC_INIT clears KEY on every path. -/
theorem errorsArePrecise : Obligations.ErrorsArePrecise := by
  intro cw s t h
  obtain ⟨code, eq, u, he, -, herror⟩ := engineStep_shape cw s
  cases he.symm.trans h
  refine ⟨fun hcode => ?_, fun ⟨keylen, bk, hdecode⟩ => ?_, fun hother hcode => ?_⟩
  · obtain rfl | ⟨-, rfl⟩ := herror hcode <;> rfl
  · have hexec : engineStep cw s = exec (.macInit keylen bk) s := by simp only [engineStep, hdecode]
    exact exec_macInit_key (hexec.symm.trans h)
  · obtain rfl | ⟨⟨keylen, bk, hdecode⟩, -⟩ := herror hcode
    · rfl
    · exact absurd hdecode (hother keylen bk)

end Sys2Proof.Machine
end

section
/-!
Reset while a command is pending, and the ROUNDs a counting core applies (spec/70_reset_and_hazards.md R231, R240): O13, O60.
-/

namespace Sys2Proof.Machine

/-! ### Reset -/

/-- Settles O13: the engine does not move before the host's accesses have come, so the host's move takes the reset. -/
theorem resetAbandonsPendingCommand : Obligations.ResetAbandonsPendingCommand := by
  intro s rest hevents hwait
  have hhost : step s = hostStep s := by
    obtain ⟨p, hp, hmove, -⟩ | ⟨-, h⟩ | ⟨p, -, -, -, h⟩ := step_cases s
    · obtain hzero | hnil := hmove
      · exact absurd hzero (hwait p hp)
      · exact absurd (hevents.symm.trans hnil) (List.cons_ne_nil _ _)
    · exact h
    · exact h
  rw [hhost, hostStep_cons s _ rest hevents]
  rfl

/-! ### The work of a command -/

/-- What a command costs that ends in `r`: `w` rounds where it completes with OK, none where it raises an error (R240). -/
def charge (w : Nat) (r : Result) : Charged :=
  { rounds := match r with
      | .next t => if t.err = .ok then w else 0
      | .fault _ => 0
      | .refused _ => 0
    outcome := r }

theorem charge_okWork_exec (i : Instr) (s : State) :
    charge (okWork s i) (exec i s) = { rounds := work i s, outcome := exec i s } := rfl

theorem charge_ok (w : Nat) (eq : Bool) (s : State) :
    charge w (.next (complete .ok eq s)) = { rounds := w, outcome := .next (complete .ok eq s) } := rfl

theorem charge_finish (w : Nat) (s : State) : charge w (finish s) = { rounds := w, outcome := finish s } := rfl

theorem charge_raise (w : Nat) {e : ErrCode} (he : e ≠ .ok) (s : State) :
    charge w (raise e s) = { rounds := 0, outcome := raise e s } := by
  simp only [charge, raise, complete_err, he, if_false]

theorem charge_zero (r : Result) : charge 0 r = { rounds := 0, outcome := r } := by
  cases r with
  | next t => simp only [charge, ite_self]
  | fault f => rfl
  | refused q => rfl

theorem meteredExec_init (bk : Selector) (s : State) :
    meteredExec (.init bk) s = charge s.param.i.toNat (execInit bk s) := by
  simp only [meteredExec, execInit, meteredInit_eq]
  split
  · cases selectBackend s bk with
    | some k => exact (charge_finish _ _).symm
    | none => exact (charge_raise _ (by decide) _).symm
  · exact (charge_raise _ (by decide) _).symm

/-- MAC_INIT: I rounds for CORE_INIT and R for each of the key's two blocks (R171, R240). -/
theorem meteredExec_macInit (keylen : BitVec 7) (bk : Selector) (s : State) :
    meteredExec (.macInit keylen bk) s = charge (s.param.i.toNat + 2 * s.param.r.toNat) (execMacInit keylen bk s) := by
  simp only [meteredExec, execMacInit, meteredInit_eq, meteredAbsorb_eq, Nat.add_assoc, ← Nat.two_mul, macState]
  split
  · split
    · cases selectBackend s bk with
      | some k => exact (charge_finish _ _).symm
      | none => exact (charge_raise _ (by decide) _).symm
    · exact (charge_raise _ (by decide) _).symm
  · exact (charge_raise _ (by decide) _).symm

/-- At most 32 bytes fill a buffer that holds fewer than 32 once at most. -/
theorem blocksFilled_eq {n len : Nat} (hn : n < 32) (hlen : len ≤ 32) :
    (n + len) / 32 = if 32 ≤ n + len then 1 else 0 := by
  split <;> omega

/-- The bytes of an UPDATE on the counting core: R rounds where they fill the buffer, which they do once at most (R155, R240). -/
theorem meteredUpdate_eq (s : State) {len : BitVec 7} (hlen : len.toNat ≤ 32) :
    ((bytesOf s.din).take len.toNat).foldl meteredAppend { live := s.live, count := 0 } =
      { live := bufAppendAll s.live ((bytesOf s.din).take len.toNat), count := okWork s (.update len) } := by
  have hbytes : ((bytesOf s.din).take len.toNat).length = len.toNat := by
    rw [List.length_take, bytesOf_length]
    omega
  rw [meteredAppendAll_eq, hbytes, blocksFilled_eq s.live.n.isLt hlen]
  simp only [okWork, Nat.zero_add, ite_mul, Nat.one_mul, Nat.zero_mul]

theorem meteredExec_update (len : BitVec 7) (s : State) :
    meteredExec (.update len) s = charge (okWork s (.update len)) (execUpdate len s) := by
  by_cases hlen : 32 < len.toNat
  · simp only [meteredExec, execUpdate, if_pos hlen]
    exact (charge_raise _ (by decide) _).symm
  · simp only [meteredExec, execUpdate, if_neg hlen, meteredUpdate_eq s (Nat.le_of_not_lt hlen)]
    cases hguard : guardAbsorb s.live with
    | some e => exact (charge_raise _ (guardAbsorb_ne_ok hguard) _).symm
    | none => exact (charge_finish _ _).symm

/-- FINAL: R rounds for the padded block and F for CORE_FINAL (R156, R240). -/
theorem meteredExec_final (s : State) :
    meteredExec .final s = charge (s.live.lp.r.toNat + s.live.lp.f.toNat) (execFinal s) := by
  simp only [meteredExec, execFinal, meteredFinish_eq]
  cases hguard : guardAbsorb s.live with
  | some e => exact (charge_raise _ (guardAbsorb_ne_ok hguard) _).symm
  | none => exact (charge_finish _ _).symm

/-- VERIFY computes the digest FINAL would (R172, R240). -/
theorem meteredExec_verify (taglen : BitVec 7) (s : State) :
    meteredExec (.verify taglen) s = charge (s.live.lp.r.toNat + s.live.lp.f.toNat) (execVerify taglen s) := by
  simp only [meteredExec, execVerify, meteredFinish_eq]
  split
  · exact (charge_raise _ (by decide) _).symm
  · cases hguard : guardAbsorb s.live with
    | some e => exact (charge_raise _ (guardAbsorb_ne_ok hguard) _).symm
    | none =>
      by_cases hmac : s.live.mac = true
      · simp only [if_pos hmac]
        exact (charge_ok _ _ _).symm
      · simp only [if_neg hmac]
        exact (charge_raise _ (by decide) _).symm

theorem meteredExec_ctxLoad (s : State) : meteredExec .ctxLoad s = charge 0 (execCtxLoad s) := by
  rw [charge_zero]
  simp only [meteredExec, execCtxLoad]
  cases loadContext s.caps s.staging with
  | ok c => rfl
  | error e => rfl

theorem meteredExec_zeroize (s : State) : meteredExec .zeroize s = charge 0 (execZeroize s) := by
  rw [charge_zero]
  rfl

/-- The counting core performs every command as `exec` does and counts its work (R240). -/
theorem meteredExec_eq (i : Instr) (s : State) : meteredExec i s = { rounds := work i s, outcome := exec i s } := by
  rw [← charge_okWork_exec]
  cases i with
  | nop => exact charge_finish 0 s
  | init bk => exact meteredExec_init bk s
  | update len => exact meteredExec_update len s
  | final => exact meteredExec_final s
  | macInit keylen bk => exact meteredExec_macInit keylen bk s
  | verify taglen => exact meteredExec_verify taglen s
  | ctxSave => rfl
  | ctxLoad => exact meteredExec_ctxLoad s
  | zeroize => exact meteredExec_zeroize s

theorem work_of_next {i : Instr} {s t : State} (h : exec i s = .next t) :
    work i s = if t.err = .ok then okWork s i else 0 := by
  simp only [work, h]

/-- The dearest row of the table is MAC_INIT: I + 2R, three fields of 8 bits (R240). -/
theorem okWork_le (s : State) (i : Instr) : okWork s i ≤ 765 := by
  have hparamI := s.param.i.isLt
  have hparamR := s.param.r.isLt
  have hliveR := s.live.lp.r.isLt
  have hliveF := s.live.lp.f.isLt
  cases i with
  | update len => simp only [okWork]; split <;> omega
  | init | final | macInit | verify => simp only [okWork]; omega
  | nop | ctxSave | ctxLoad | zeroize => exact Nat.zero_le _

theorem work_le (i : Instr) (s : State) : work i s ≤ 765 := by
  obtain ⟨t, h, -⟩ := exec_liveMove i s
  rw [work_of_next h]
  split
  · exact okWork_le s i
  · exact Nat.zero_le _

/-- Settles O60: the counting core's ROUNDS is the iteration of ROUND, and its commands are those of `exec` with their work. -/
theorem workIsBounded : Obligations.WorkIsBounded := by
  refine ⟨fun n x => ?_, fun i s => ?_⟩
  · simp only [meteredRounds_eq, rounds_eq_iterate, and_self]
  · simp only [meteredExec_eq]
    refine ⟨trivial, trivial, fun t h => ?_, work_le i s⟩
    rw [work_of_next h]
    exact ⟨fun hok => if_pos hok, fun herror => if_neg herror⟩

end Sys2Proof.Machine
end
